-- ==== Sys2Proof/Word.lean ====
section
/-! DEFINITION. The word types: a byte of memory or of a register, and the 16-bit word of an instruction,
of `pc`, of `I` and of a stack slot (spec 00_scope.md R5, R7). All values are unsigned. -/

namespace Sys2Proof

/-- An 8-bit value: a general register, a timer, a memory cell (R5 `V_WIDTH`, `TIMER_WIDTH`). -/
abbrev Byte := BitVec 8

/-- A 16-bit value: an instruction word, `pc`, `I` or a stack slot (R5 `PC_WIDTH`, `I_WIDTH`). -/
abbrev Word := BitVec 16

end Sys2Proof
end

