-- ==== Sys2Proof/Syntax.lean ====
section
/-! DEFINITION. The 35 instructions, one constructor per row of spec/opcode_table.json (30_encoding.md R52),
and their operand fields (R49). -/

namespace Sys2Proof

/-- A register field `x` or `y`: all 16 values are legal (R51). -/
abbrev Reg := Fin 16

/-- `V[15]`, the flag register VF (10_state.md R13). -/
abbrev Reg.vf : Reg := 15

/-- A byte immediate `kk`, bits 7..0 (R49). -/
abbrev Imm8 := BitVec 8

/-- An address immediate `nnn`, bits 11..0 (R49). -/
abbrev Imm12 := BitVec 12

/-- A nibble immediate `n`, bits 3..0: a row count (R49, R50). -/
abbrev Imm4 := BitVec 4

/-- The instructions. A constructor's docstring gives its pattern and the rule that gives its meaning. -/
inductive Instr where
  /-- `00E0` CLS (R107) -/
  | cls
  /-- `00EE` RET (R69) -/
  | ret
  /-- `0nnn` SYS nnn (R70) -/
  | sys (nnn : Imm12)
  /-- `1nnn` JP nnn (R71) -/
  | jp (nnn : Imm12)
  /-- `2nnn` CALL nnn (R72) -/
  | call (nnn : Imm12)
  /-- `3xkk` SE Vx, kk (R75) -/
  | seImm (x : Reg) (kk : Imm8)
  /-- `4xkk` SNE Vx, kk (R76) -/
  | sneImm (x : Reg) (kk : Imm8)
  /-- `5xy0` SE Vx, Vy (R77) -/
  | seReg (x y : Reg)
  /-- `6xkk` LD Vx, kk (R81) -/
  | ldImm (x : Reg) (kk : Imm8)
  /-- `7xkk` ADD Vx, kk (R82) -/
  | addImm (x : Reg) (kk : Imm8)
  /-- `8xy0` LD Vx, Vy (R83) -/
  | ldReg (x y : Reg)
  /-- `8xy1` OR Vx, Vy (R84) -/
  | orReg (x y : Reg)
  /-- `8xy2` AND Vx, Vy (R85) -/
  | andReg (x y : Reg)
  /-- `8xy3` XOR Vx, Vy (R86) -/
  | xorReg (x y : Reg)
  /-- `8xy4` ADD Vx, Vy (R87) -/
  | addReg (x y : Reg)
  /-- `8xy5` SUB Vx, Vy (R88) -/
  | subReg (x y : Reg)
  /-- `8xy6` SHR Vx, Vy (R89); the `y` field is decoded and not used -/
  | shr (x y : Reg)
  /-- `8xy7` SUBN Vx, Vy (R90) -/
  | subn (x y : Reg)
  /-- `8xyE` SHL Vx, Vy (R91); the `y` field is decoded and not used -/
  | shl (x y : Reg)
  /-- `9xy0` SNE Vx, Vy (R78) -/
  | sneReg (x y : Reg)
  /-- `Annn` LD I, nnn (R94) -/
  | ldI (nnn : Imm12)
  /-- `Bnnn` JP V0, nnn (R73) -/
  | jpV0 (nnn : Imm12)
  /-- `Cxkk` RND Vx, kk (R92) -/
  | rnd (x : Reg) (kk : Imm8)
  /-- `Dxyn` DRW Vx, Vy, n (R108) -/
  | drw (x y : Reg) (n : Imm4)
  /-- `Ex9E` SKP Vx (R79) -/
  | skp (x : Reg)
  /-- `ExA1` SKNP Vx (R80) -/
  | sknp (x : Reg)
  /-- `Fx07` LD Vx, DT (R100) -/
  | ldVxDt (x : Reg)
  /-- `Fx0A` LD Vx, K (R101) -/
  | ldVxK (x : Reg)
  /-- `Fx15` LD DT, Vx (R102) -/
  | ldDtVx (x : Reg)
  /-- `Fx18` LD ST, Vx (R103) -/
  | ldStVx (x : Reg)
  /-- `Fx1E` ADD I, Vx (R95) -/
  | addI (x : Reg)
  /-- `Fx29` LD F, Vx (R96) -/
  | ldF (x : Reg)
  /-- `Fx33` LD B, Vx (R97) -/
  | ldB (x : Reg)
  /-- `Fx55` LD [I], Vx (R98) -/
  | storeRegs (x : Reg)
  /-- `Fx65` LD Vx, [I] (R99) -/
  | loadRegs (x : Reg)
  deriving DecidableEq, Repr

end Sys2Proof
end

