-- ==== Sys2Proof/Decode.lean ====
section
/-! DEFINITION. Decoding a 16-bit word (30_encoding.md R49, R52, R53, R55) and, after it, the encoder written from
the same encoding lines, the opcode map of R52 as a table, and the byte order of an instruction (R37). -/

namespace Sys2Proof

/-! ### Fields (R49) -/

/-- A register number from its four bits. -/
def Reg.ofBits (b : BitVec 4) : Reg := ⟨b.toNat, b.isLt⟩

/-- The four bits of a register number. -/
def Reg.bits (r : Reg) : BitVec 4 := BitVec.ofNat 4 r.val

/-- `op`: bits 15..12, the primary opcode family. -/
def Word.op (w : Word) : BitVec 4 := w.extractLsb' 12 4

/-- `x`: bits 11..8. -/
def Word.x (w : Word) : Reg := Reg.ofBits (w.extractLsb' 8 4)

/-- `y`: bits 7..4. -/
def Word.y (w : Word) : Reg := Reg.ofBits (w.extractLsb' 4 4)

/-- `n`: bits 3..0. -/
def Word.n (w : Word) : Imm4 := w.extractLsb' 0 4

/-- `kk`: bits 7..0. -/
def Word.kk (w : Word) : Imm8 := w.extractLsb' 0 8

/-- `nnn`: bits 11..0. -/
def Word.nnn (w : Word) : Imm12 := w.extractLsb' 0 12

/-! ### The decoder -/

/-- Family 0: the two exact patterns are tried before `0nnn` (R52). -/
def decodeFamily0 (w : Word) : Instr :=
  if w = 0x00E0#16 then .cls
  else if w = 0x00EE#16 then .ret
  else .sys (Word.nnn w)

/-- Family 8: the low nibble selects the operation; the others are illegal (R52, R53). -/
def decodeFamily8 (w : Word) : Option Instr :=
  match Word.n w with
  | 0x0#4 => some (.ldReg (Word.x w) (Word.y w))
  | 0x1#4 => some (.orReg (Word.x w) (Word.y w))
  | 0x2#4 => some (.andReg (Word.x w) (Word.y w))
  | 0x3#4 => some (.xorReg (Word.x w) (Word.y w))
  | 0x4#4 => some (.addReg (Word.x w) (Word.y w))
  | 0x5#4 => some (.subReg (Word.x w) (Word.y w))
  | 0x6#4 => some (.shr (Word.x w) (Word.y w))
  | 0x7#4 => some (.subn (Word.x w) (Word.y w))
  | 0xE#4 => some (.shl (Word.x w) (Word.y w))
  | _ => none

/-- Family E: the low byte selects the operation (R52, R53). -/
def decodeFamilyE (w : Word) : Option Instr :=
  match Word.kk w with
  | 0x9E#8 => some (.skp (Word.x w))
  | 0xA1#8 => some (.sknp (Word.x w))
  | _ => none

/-- Family F: the low byte selects the operation (R52, R53). -/
def decodeFamilyF (w : Word) : Option Instr :=
  match Word.kk w with
  | 0x07#8 => some (.ldVxDt (Word.x w))
  | 0x0A#8 => some (.ldVxK (Word.x w))
  | 0x15#8 => some (.ldDtVx (Word.x w))
  | 0x18#8 => some (.ldStVx (Word.x w))
  | 0x1E#8 => some (.addI (Word.x w))
  | 0x29#8 => some (.ldF (Word.x w))
  | 0x33#8 => some (.ldB (Word.x w))
  | 0x55#8 => some (.storeRegs (Word.x w))
  | 0x65#8 => some (.loadRegs (Word.x w))
  | _ => none

/-- The instruction a word stands for, `none` where it matches no row of R52 (R53: illegal). It depends on the
word alone (R55). Families 5 and 9 are decoded strictly, low nibble 0 (R53). -/
def decodeWord (w : Word) : Option Instr :=
  match Word.op w with
  | 0x0#4 => some (decodeFamily0 w)
  | 0x1#4 => some (.jp (Word.nnn w))
  | 0x2#4 => some (.call (Word.nnn w))
  | 0x3#4 => some (.seImm (Word.x w) (Word.kk w))
  | 0x4#4 => some (.sneImm (Word.x w) (Word.kk w))
  | 0x5#4 => if Word.n w = 0#4 then some (.seReg (Word.x w) (Word.y w)) else none
  | 0x6#4 => some (.ldImm (Word.x w) (Word.kk w))
  | 0x7#4 => some (.addImm (Word.x w) (Word.kk w))
  | 0x8#4 => decodeFamily8 w
  | 0x9#4 => if Word.n w = 0#4 then some (.sneReg (Word.x w) (Word.y w)) else none
  | 0xA#4 => some (.ldI (Word.nnn w))
  | 0xB#4 => some (.jpV0 (Word.nnn w))
  | 0xC#4 => some (.rnd (Word.x w) (Word.kk w))
  | 0xD#4 => some (.drw (Word.x w) (Word.y w) (Word.n w))
  | 0xE#4 => decodeFamilyE w
  | 0xF#4 => decodeFamilyF w
  | _ => none

/-- Why bytes are no instruction: a word that matches no row, named (R53), or fewer than the two bytes that
every instruction has (R48). -/
inductive DecodeError where
  | invalidOpcode (w : Word)
  | truncated
  deriving DecidableEq, Repr

/-- The word of two bytes: the byte at the lower address is bits 15..8 (R37). -/
def wordOfBytes (hi lo : Byte) : Word := hi ++ lo

/-- The instruction at the head of a list of bytes, with the rest of the list (R37, R48). -/
def decode : List Byte → Except DecodeError (Instr × List Byte)
  | hi :: lo :: rest =>
    match decodeWord (wordOfBytes hi lo) with
    | some i => .ok (i, rest)
    | none => .error (.invalidOpcode (wordOfBytes hi lo))
  | [_] => .error .truncated
  | [] => .error .truncated

/-! ### The encoder -/

/-- A word of the format `A`: `op nnn` (R49). -/
def encodeA (op : BitVec 4) (nnn : Imm12) : Word := op ++ nnn

/-- A word of the formats `XK` and `X`: `op x kk` (R49). -/
def encodeXK (op : BitVec 4) (x : Reg) (kk : Imm8) : Word := op ++ (Reg.bits x ++ kk)

/-- A word of the formats `XY` and `XYN`: `op x y n` (R49). -/
def encodeXYN (op : BitVec 4) (x y : Reg) (n : Imm4) : Word := op ++ (Reg.bits x ++ (Reg.bits y ++ n))

/-- The word of an instruction, from the `Encoding:` line of its rule. -/
def encode : Instr → Word
  | .cls => 0x00E0#16
  | .ret => 0x00EE#16
  | .sys nnn => encodeA 0x0 nnn
  | .jp nnn => encodeA 0x1 nnn
  | .call nnn => encodeA 0x2 nnn
  | .seImm x kk => encodeXK 0x3 x kk
  | .sneImm x kk => encodeXK 0x4 x kk
  | .seReg x y => encodeXYN 0x5 x y 0x0
  | .ldImm x kk => encodeXK 0x6 x kk
  | .addImm x kk => encodeXK 0x7 x kk
  | .ldReg x y => encodeXYN 0x8 x y 0x0
  | .orReg x y => encodeXYN 0x8 x y 0x1
  | .andReg x y => encodeXYN 0x8 x y 0x2
  | .xorReg x y => encodeXYN 0x8 x y 0x3
  | .addReg x y => encodeXYN 0x8 x y 0x4
  | .subReg x y => encodeXYN 0x8 x y 0x5
  | .shr x y => encodeXYN 0x8 x y 0x6
  | .subn x y => encodeXYN 0x8 x y 0x7
  | .shl x y => encodeXYN 0x8 x y 0xE
  | .sneReg x y => encodeXYN 0x9 x y 0x0
  | .ldI nnn => encodeA 0xA nnn
  | .jpV0 nnn => encodeA 0xB nnn
  | .rnd x kk => encodeXK 0xC x kk
  | .drw x y n => encodeXYN 0xD x y n
  | .skp x => encodeXK 0xE x 0x9E
  | .sknp x => encodeXK 0xE x 0xA1
  | .ldVxDt x => encodeXK 0xF x 0x07
  | .ldVxK x => encodeXK 0xF x 0x0A
  | .ldDtVx x => encodeXK 0xF x 0x15
  | .ldStVx x => encodeXK 0xF x 0x18
  | .addI x => encodeXK 0xF x 0x1E
  | .ldF x => encodeXK 0xF x 0x29
  | .ldB x => encodeXK 0xF x 0x33
  | .storeRegs x => encodeXK 0xF x 0x55
  | .loadRegs x => encodeXK 0xF x 0x65

/-- The high byte of a word, the one at the lower address (R37). -/
def highByte (w : Word) : Byte := w.extractLsb' 8 8

/-- The low byte of a word, the one at the higher address (R37). -/
def lowByte (w : Word) : Byte := w.extractLsb' 0 8

/-- The two bytes of an instruction as memory holds them, most significant first (R37). -/
def encodeBytes (i : Instr) : List Byte := [highByte (encode i), lowByte (encode i)]

/-! ### The opcode map as R52 prints it -/

/-- A row of the opcode map: `w` matches where `w & mask = pattern`, and the fields are read from `w` itself. -/
structure OpcodeRow where
  pattern : Word
  mask : Word
  build : Word → Instr

/-- The word matches the row: `w & mask = match` (R52). -/
def OpcodeRow.matches (r : OpcodeRow) (w : Word) : Bool := w &&& r.mask == r.pattern

/-- The rows of families 0 to 7, in the order of R52. -/
def opcodeRowsLow : List OpcodeRow :=
  [ ⟨0x00E0, 0xFFFF, fun _ => .cls⟩
  , ⟨0x00EE, 0xFFFF, fun _ => .ret⟩
  , ⟨0x0000, 0xF000, fun w => .sys (Word.nnn w)⟩
  , ⟨0x1000, 0xF000, fun w => .jp (Word.nnn w)⟩
  , ⟨0x2000, 0xF000, fun w => .call (Word.nnn w)⟩
  , ⟨0x3000, 0xF000, fun w => .seImm (Word.x w) (Word.kk w)⟩
  , ⟨0x4000, 0xF000, fun w => .sneImm (Word.x w) (Word.kk w)⟩
  , ⟨0x5000, 0xF00F, fun w => .seReg (Word.x w) (Word.y w)⟩
  , ⟨0x6000, 0xF000, fun w => .ldImm (Word.x w) (Word.kk w)⟩
  , ⟨0x7000, 0xF000, fun w => .addImm (Word.x w) (Word.kk w)⟩ ]

/-- The rows of families 8 and 9. -/
def opcodeRowsMid : List OpcodeRow :=
  [ ⟨0x8000, 0xF00F, fun w => .ldReg (Word.x w) (Word.y w)⟩
  , ⟨0x8001, 0xF00F, fun w => .orReg (Word.x w) (Word.y w)⟩
  , ⟨0x8002, 0xF00F, fun w => .andReg (Word.x w) (Word.y w)⟩
  , ⟨0x8003, 0xF00F, fun w => .xorReg (Word.x w) (Word.y w)⟩
  , ⟨0x8004, 0xF00F, fun w => .addReg (Word.x w) (Word.y w)⟩
  , ⟨0x8005, 0xF00F, fun w => .subReg (Word.x w) (Word.y w)⟩
  , ⟨0x8006, 0xF00F, fun w => .shr (Word.x w) (Word.y w)⟩
  , ⟨0x8007, 0xF00F, fun w => .subn (Word.x w) (Word.y w)⟩
  , ⟨0x800E, 0xF00F, fun w => .shl (Word.x w) (Word.y w)⟩
  , ⟨0x9000, 0xF00F, fun w => .sneReg (Word.x w) (Word.y w)⟩ ]

/-- The rows of families A to F. -/
def opcodeRowsHigh : List OpcodeRow :=
  [ ⟨0xA000, 0xF000, fun w => .ldI (Word.nnn w)⟩
  , ⟨0xB000, 0xF000, fun w => .jpV0 (Word.nnn w)⟩
  , ⟨0xC000, 0xF000, fun w => .rnd (Word.x w) (Word.kk w)⟩
  , ⟨0xD000, 0xF000, fun w => .drw (Word.x w) (Word.y w) (Word.n w)⟩
  , ⟨0xE09E, 0xF0FF, fun w => .skp (Word.x w)⟩
  , ⟨0xE0A1, 0xF0FF, fun w => .sknp (Word.x w)⟩
  , ⟨0xF007, 0xF0FF, fun w => .ldVxDt (Word.x w)⟩
  , ⟨0xF00A, 0xF0FF, fun w => .ldVxK (Word.x w)⟩
  , ⟨0xF015, 0xF0FF, fun w => .ldDtVx (Word.x w)⟩
  , ⟨0xF018, 0xF0FF, fun w => .ldStVx (Word.x w)⟩
  , ⟨0xF01E, 0xF0FF, fun w => .addI (Word.x w)⟩
  , ⟨0xF029, 0xF0FF, fun w => .ldF (Word.x w)⟩
  , ⟨0xF033, 0xF0FF, fun w => .ldB (Word.x w)⟩
  , ⟨0xF055, 0xF0FF, fun w => .storeRegs (Word.x w)⟩
  , ⟨0xF065, 0xF0FF, fun w => .loadRegs (Word.x w)⟩ ]

/-- The 35 rows of R52, top to bottom. -/
def opcodeMap : List OpcodeRow := opcodeRowsLow ++ opcodeRowsMid ++ opcodeRowsHigh

/-- R52 read literally: the first row, top to bottom, that the word matches. The machine runs `decodeWord`; that
the two agree is a statement. -/
def decodeByMap (w : Word) : Option Instr := (opcodeMap.find? (·.matches w)).map (·.build w)

/-! ### The host's numbering of spec/opcode_table.json -/

/-- The two bytes of the instruction whose bits are the low `nbits` bits of `w`, bit 0 the least significant bit
of the one word, as memory holds them (R37). -/
def tableBytes (nbits w : Nat) : Byte × Byte :=
  let word : Word := BitVec.ofNat 16 (w % 2 ^ nbits)
  (highByte word, lowByte word)

/-- What the decoder reads from that instruction. -/
def decodeTableWord (nbits w : Nat) : Option Instr :=
  match decode [(tableBytes nbits w).1, (tableBytes nbits w).2] with
  | .ok (i, _) => some i
  | .error _ => none

end Sys2Proof
end

