-- ==== Sys2Proof/Config.lean ====
section
/-! DEFINITION. The fixed parameters of spec 00_scope.md R5 that the machine's operations name, and the one
free value, the random byte source `RNG` (R6, 92_eei_decisions.md D22). The other open parameter, `GLYPHS`,
is a field of State (notes/assumptions/3.md). -/

namespace Sys2Proof.Config

/-- `MEM_SIZE`: 4096 bytes. An address is reduced mod this before each access (R35). -/
abbrev memSize : Nat := 4096

/-- `PC_RESET`: the entry point 0x200 (R32, R125). -/
abbrev pcReset : Word := 0x200#16

/-- `GLYPH_BYTES`: the glyph ROM has 80 bytes, copied to addresses 0..79 at reset (R26). -/
abbrev glyphBytes : Nat := 80

/-- `GLYPH_STRIDE`: a glyph has 5 bytes (R26). -/
abbrev glyphStride : Nat := 5

/-- `ROM_BASE`: a ROM image is copied to 512 upward (R126). -/
abbrev romBase : Nat := 512

/-- `ROM_MAX`: the longest image the loader accepts (R127). -/
abbrev romMax : Nat := 3584

/-- FREE VALUE (notes/assumptions/4.md). `randomByte k` is the k-th byte that `Cxkk` takes from `RNG`.
It has no body: nothing can be proved of its value, so a statement about it holds for every draw (R92). -/
opaque randomByte : Nat → Byte

end Sys2Proof.Config
end

