-- ==== Sys2Proof/Machine/Glyphs.lean ====
section
/-! DEFINITION. The default of the parameter `GLYPHS` (10_state.md R26, R27): 16 glyphs of 5 bytes. PRESUMED: the
source gives no byte, and R27 marks this table as general knowledge (notes/assumptions/3.md). -/

namespace Sys2Proof.Machine

/-- Glyphs 0 to 7 of R27's table. -/
def defaultGlyphsLow : List Byte :=
  [0xF0, 0x90, 0x90, 0x90, 0xF0,
   0x20, 0x60, 0x20, 0x20, 0x70,
   0xF0, 0x10, 0xF0, 0x80, 0xF0,
   0xF0, 0x10, 0xF0, 0x10, 0xF0,
   0x90, 0x90, 0xF0, 0x10, 0x10,
   0xF0, 0x80, 0xF0, 0x10, 0xF0,
   0xF0, 0x80, 0xF0, 0x90, 0xF0,
   0xF0, 0x10, 0x20, 0x40, 0x40]

/-- Glyphs 8 to F of R27's table. -/
def defaultGlyphsHigh : List Byte :=
  [0xF0, 0x90, 0xF0, 0x90, 0xF0,
   0xF0, 0x90, 0xF0, 0x10, 0xF0,
   0xF0, 0x90, 0xF0, 0x90, 0x90,
   0xE0, 0x90, 0xE0, 0x90, 0xE0,
   0xF0, 0x80, 0x80, 0x80, 0xF0,
   0xE0, 0x90, 0x90, 0x90, 0xE0,
   0xF0, 0x80, 0xF0, 0x80, 0xF0,
   0xF0, 0x80, 0xF0, 0x80, 0x80]

/-- R27's table: glyph d is bytes `5*d`..`5*d+4`, top row first. -/
def defaultGlyphs : Vector Byte 80 := ⟨(defaultGlyphsLow ++ defaultGlyphsHigh).toArray, rfl⟩

end Sys2Proof.Machine
end

