-- ==== Sys2Proof/Machine/State.lean ====
section
/-! DEFINITION. The machine's state (10_state.md), its run status and fault record (R24, R111), the reasons a step
can end without a next state, and the state right after reset (R32). Plain data only. -/

namespace Sys2Proof.Machine

/-- The four engine faults of 60_exceptions.md R109. An instruction that raises one TAKES it: the step answers a
next state whose status is `halted` (notes/assumptions/1.md). -/
inductive FaultKind where
  /-- decode: the fetched word matches no row of the opcode map (R53) -/
  | invalidOpcode
  /-- `2nnn` with `SP = 16` (R72) -/
  | stackOverflow
  /-- `00EE` with `SP = 0` (R69) -/
  | stackUnderflow
  /-- `Ex9E`, `ExA1` with `V[x] > 15` (R79, R80) -/
  | keyIndexOutOfRange
  deriving DecidableEq, Repr

/-- The record f of `Halted(f)`: the fault's kind, the address of the instruction that faulted and the word fetched
there (R111). -/
structure FaultRecord where
  kind : FaultKind
  pc : Word
  word : Word
  deriving DecidableEq, Repr

/-- The run status (R24). -/
inductive Status where
  /-- before the first reset: a cycle is refused -/
  | uninitialised
  /-- after a reset: the engine executes instructions -/
  | running
  /-- after the fatal fault f: a cycle changes nothing and returns f again, with no tone (R66) -/
  | halted (f : FaultRecord)
  deriving DecidableEq, Repr

/-- Why a step would stop with no next state because of a fault: NEVER, so the type is empty. A fault of the spec
is taken as a next state, and a cycle of a halted machine has one too, the unchanged state (40_engine_cycle.md R65,
R66; notes/assumptions/1.md). Safe: nothing raises it. -/
inductive Fault where
  deriving DecidableEq, Repr

/-- Why a step gives no meaning. -/
inductive Refusal where
  /-- Raised by an arm of `exec` for an instruction without a meaning. No arm does. Safe. -/
  | notModelled (mnemonic : String)
  /-- Raised by `step` (never by an instruction) where the machine was never reset: the spec's outcome `Refused`,
  which has no next state (40_engine_cycle.md R59, R66). Safe. -/
  | uninitialised
  deriving DecidableEq, Repr

/-- The framebuffer: 32 rows of 64 pixels, `fb[r][c]` (R21, R104). -/
abbrev Framebuffer := Vector (Vector Bool 64) 32

/-- All the state the spec gives the machine, and two fields of the model's own that hold what the spec calls
parameters (R31): `glyphs` and `draws`. -/
structure State where
  /-- `V[0]`..`V[15]` (R12); `V[15]` is VF (R13) -/
  v : Vector Byte 16
  /-- the index register I (R15) -/
  i : Word
  /-- the program counter (R14) -/
  pc : Word
  /-- `stack[0]`..`stack[15]` (R16) -/
  stack : Vector Word 16
  /-- SP, the number of return addresses on the stack, 0..16 (R17) -/
  sp : Fin 17
  /-- the delay timer DT (R18) -/
  dt : Byte
  /-- the sound timer ST (R19) -/
  st : Byte
  /-- memory (R20): the cells that differ from the reset contents, addresses strictly rising -/
  mem : List Host.Cell
  /-- the framebuffer (R21) -/
  fb : Framebuffer
  /-- the keypad, `true` for pressed (R22) -/
  keypad : Vector Bool 16
  /-- the redraw flag (R23) -/
  redraw : Bool
  /-- the run status (R24) -/
  status : Status
  /-- the parameter `GLYPHS` (R27): the model's own field; nothing changes it (notes/assumptions/3.md) -/
  glyphs : Vector Byte 80
  /-- how many bytes `Cxkk` has drawn from `RNG`: the model's own field (notes/assumptions/4.md) -/
  draws : Nat
  deriving DecidableEq, Repr

/-- The machine right after a reset with no ROM copied (R32, R124). `keypad` all released and `draws` zero are the
model's choices (notes/assumptions/5.md and 4.md); `glyphs` is R27's default (notes/assumptions/3.md). -/
def State.reset : State where
  v := Vector.replicate 16 0
  i := 0
  pc := Config.pcReset
  stack := Vector.replicate 16 0
  sp := 0
  dt := 0
  st := 0
  mem := []
  fb := Vector.replicate 32 (Vector.replicate 64 false)
  keypad := Vector.replicate 16 false
  redraw := false
  status := .running
  glyphs := defaultGlyphs
  draws := 0

end Sys2Proof.Machine
end

