-- ==== Sys2Proof/Machine/Memory.lean ====
section
/-! DEFINITION. Memory as a sorted list of cells: what an unlisted address reads as, reading one byte, writing one
byte and the canonical form (20_memory.md R33 to R36). Addresses here are already reduced to 0..4095; the one place
that reduces them is Machine/Ops.lean. -/

namespace Sys2Proof.Machine

/-- What an unlisted address reads as: its contents right after a reset, the glyph ROM at 0..79 and zero above
(10_state.md R32, 20_memory.md R34). -/
def Memory.unlisted (glyphs : Vector Byte 80) (a : Nat) : Byte := if h : a < 80 then glyphs[a] else 0

/-- The byte a list of cells gives an address, if it lists it. -/
def Memory.lookup : List Host.Cell → Nat → Option Byte
  | [], _ => none
  | (k, b) :: m, a => if k = a then some b else Memory.lookup m a

/-- The byte at an address. -/
def Memory.get (glyphs : Vector Byte 80) (m : List Host.Cell) (a : Nat) : Byte :=
  (Memory.lookup m a).getD (Memory.unlisted glyphs a)

/-- A rising list with the cell of one address put in or replaced. -/
def Memory.insert : List Host.Cell → Nat → Byte → List Host.Cell
  | [], a, b => [(a, b)]
  | (k, c) :: m, a, b =>
    if a < k then (a, b) :: (k, c) :: m
    else if k = a then (a, b) :: m
    else (k, c) :: Memory.insert m a b

/-- A list with every cell of one address taken out. -/
def Memory.erase : List Host.Cell → Nat → List Host.Cell
  | [], _ => []
  | (k, c) :: m, a => if k = a then Memory.erase m a else (k, c) :: Memory.erase m a

/-- Write one byte, keeping the canonical form: writing what an unlisted address reads as takes the cell out. -/
def Memory.put (glyphs : Vector Byte 80) (m : List Host.Cell) (a : Nat) (b : Byte) : List Host.Cell :=
  if b = Memory.unlisted glyphs a then Memory.erase m a else Memory.insert m a b

/-- Every address of the list is at least `lo`, and addresses rise strictly. -/
def Memory.rising : Nat → List Host.Cell → Bool
  | _, [] => true
  | lo, (k, _) :: m => decide (lo ≤ k) && Memory.rising (k + 1) m

/-- The canonical form: addresses rise strictly, lie in 0..4095, and no cell equals what its address reads as
unlisted. -/
def Memory.wf (glyphs : Vector Byte 80) (m : List Host.Cell) : Bool :=
  Memory.rising 0 m && m.all (fun c => decide (c.1 < Config.memSize) && c.2 != Memory.unlisted glyphs c.1)

end Sys2Proof.Machine
end

