-- ==== Sys2Proof/Machine/Ops.lean ====
section
/-! DEFINITION. The named operations over registers, memory, stack, display and keypad that every meaning is written
over; fetching an instruction's word; taking a fault; the timer decay that ends a completed cycle. -/

namespace Sys2Proof.Machine

/-! ### Registers and the program counter -/

/-- `V[r]` (R9, R12). -/
def State.reg (s : State) (r : Reg) : Byte := s.v[r]

/-- `V[r] <- b`. No register is hard-wired (R12). -/
def State.setReg (s : State) (r : Reg) (b : Byte) : State := { s with v := s.v.set r.val b r.isLt }

/-- `VF <- b`, the flag register (R13, R28). -/
def State.setVF (s : State) (b : Byte) : State := s.setReg Reg.vf b

/-- `I <- a` (R15). -/
def State.setI (s : State) (a : Word) : State := { s with i := a }

/-- `pc <- t`; `t` is already reduced mod 65536 (R14). -/
def State.setPc (s : State) (t : Word) : State := { s with pc := t }

/-- The uniform post-step `pc <- p + 2`, mod 65536 (R64). -/
def State.advance (s : State) : State := s.setPc (s.pc + 2)

/-- A conditional skip: `pc <- p + 4` where the condition holds, else `pc <- p + 2` (42_conditional_skip.md). -/
def State.skipIf (s : State) (c : Bool) : State := s.setPc (s.pc + if c then 4 else 2)

/-- `DT <- b` (R18). -/
def State.setDT (s : State) (b : Byte) : State := { s with dt := b }

/-- `ST <- b` (R19). -/
def State.setST (s : State) (b : Byte) : State := { s with st := b }

/-! ### Memory (20_memory.md) -/

/-- Address formation: every address is reduced mod 4096 before the access (R35). -/
def maskAddr (a : Nat) : Nat := a % Config.memSize

/-- `MemRead(a, 1)` (R36). -/
def State.memRead (s : State) (a : Nat) : Byte := Memory.get s.glyphs s.mem (maskAddr a)

/-- `MemWrite(a, 1, b)` (R36). Addresses 0..511 are written like any other (R39). -/
def State.memWrite (s : State) (a : Nat) (b : Byte) : State :=
  { s with mem := Memory.put s.glyphs s.mem (maskAddr a) b }

/-- The state's memory is in canonical form. -/
def State.memWf (s : State) : Bool := Memory.wf s.glyphs s.mem

/-- Step 1 of the cycle: the big-endian word at `pc` and `pc + 1`, each address masked (R37, R61). -/
def State.fetchWord (s : State) : Word := wordOfBytes (s.memRead s.pc.toNat) (s.memRead (s.pc.toNat + 1))

/-! ### The return stack (R16, R17) -/

/-- Push a return address: `stack[SP] <- a; SP <- SP + 1`. `none` where 16 are on it already. -/
def State.push (s : State) (a : Word) : Option State :=
  if h : s.sp.val < 16 then
    some { s with stack := s.stack.set s.sp.val a h, sp := ⟨s.sp.val + 1, by omega⟩ }
  else none

/-- Pop a return address: `SP <- SP - 1`, then read `stack[SP]`; the slot keeps its value. `none` where the stack
is empty. -/
def State.pop (s : State) : Option (Word × State) :=
  if h : 0 < s.sp.val then
    some (s.stack[s.sp.val - 1]'(by omega), { s with sp := ⟨s.sp.val - 1, by omega⟩ })
  else none

/-! ### The keypad (R22) -/

/-- `keypad[k] = 1`. -/
def State.keyPressed (s : State) (k : Fin 16) : Bool := s.keypad[k]

/-- The least pressed key, if one is pressed (R101). -/
def State.leastKey (s : State) : Option Nat := (List.range 16).find? (fun k => s.keyPressed (Fin.ofNat 16 k))

/-! ### The framebuffer (R21, R104) -/

/-- `fb[r][c]`. -/
def Framebuffer.pixel (fb : Framebuffer) (r : Fin 32) (c : Fin 64) : Bool := fb[r][c]

/-- `fb[r][c] <- fb[r][c] ^ 1`. -/
def Framebuffer.flip (fb : Framebuffer) (r : Fin 32) (c : Fin 64) : Framebuffer :=
  fb.set r.val (fb[r].set c.val (!fb[r][c]) c.isLt) r.isLt

/-- The framebuffer with every pixel 0. -/
def Framebuffer.clear : Framebuffer := Vector.replicate 32 (Vector.replicate 64 false)

/-! ### The random byte source (R6, R92) -/

/-- `draw_byte()`: the next byte of `RNG`, a free value, and the state with one more byte drawn. -/
def State.drawByte (s : State) : Byte × State := (Config.randomByte s.draws, { s with draws := s.draws + 1 })

/-! ### Faults (60_exceptions.md) -/

/-- The numeric code of a fault kind (R109). -/
def FaultKind.code : FaultKind → Nat
  | .invalidOpcode => 1
  | .stackOverflow => 2
  | .stackUnderflow => 3
  | .keyIndexOutOfRange => 4

/-- The record of a fault of this kind raised now: the unchanged `pc` and the word fetched there (R111). -/
def State.faultRecord (s : State) (k : FaultKind) : FaultRecord := ⟨k, s.pc, s.fetchWord⟩

/-- `raise F`: TAKING A FAULT. The status becomes `Halted(f)` and nothing else changes (R65, R110). There is no
handler to enter and no return: a reset is the only way out (R114). -/
def State.raiseFault (s : State) (k : FaultKind) : State := { s with status := .halted (s.faultRecord k) }

/-! ### The end of a cycle (40_engine_cycle.md R63) -/

/-- One timer's decay: minus 1 if nonzero. -/
def decayTimer (t : Byte) : Byte := if t = 0 then 0 else t - 1

/-- Step 5 of the cycle: DT, then ST. -/
def State.decay (s : State) : State := { s with dt := decayTimer s.dt, st := decayTimer s.st }

/-- What follows the execute step: the decay if the cycle completed, nothing if it faulted (R63, R65). -/
def State.endCycle (s : State) : State :=
  match s.status with
  | .running => s.decay
  | .halted _ => s
  | .uninitialised => s

/-- The tone output: `ST = 1` just before the decay of a completed cycle, false in a faulting one (R25, R63, R65). -/
def State.toneNow (s : State) : Bool :=
  match s.status with
  | .running => s.st == 1
  | .halted _ => false
  | .uninitialised => false

/-! ### Reset (70_reset_and_hazards.md R124) -/

/-- Reset: every field to its reset value but `keypad`, which the input collaborator owns. `GLYPHS` is a parameter
and `RNG` lies outside the machine, so the model's own fields stay too. -/
def State.hostReset (s : State) : State :=
  { State.reset with keypad := s.keypad, glyphs := s.glyphs, draws := s.draws }

end Sys2Proof.Machine
end

