-- ==== Sys2Proof/Machine/Operands.lean ====
section
/-! DEFINITION. The operand forms beyond a plain register: immediates widened to 16 bits (30_encoding.md R50),
register-indirect through `I` plus an offset (44_index_memory.md preamble), a register widened to 16 bits, a key
index (R79), decimal digits (R97), the register block 0..x (R51, R98, R99). -/

namespace Sys2Proof.Machine

/-- `zext_16(nnn)`: an address immediate as it is written to `pc` or `I` (R50). -/
def zextAddr (nnn : Imm12) : Word := nnn.setWidth 16

/-- `zext_16(V[x])`: a register as a term of a 16-bit sum (R73, R95, R96). -/
def zextByte (b : Byte) : Word := b.setWidth 16

/-- The address `I + k` as an exact integer; the access reduces it (R35). -/
def State.indexAddr (s : State) (k : Nat) : Nat := s.i.toNat + k

/-- The key index that `V[x]` gives, `none` where it is above 15 (R79, R80). -/
def State.keyIndex (s : State) (x : Reg) : Option (Fin 16) :=
  if h : (s.reg x).toNat < 16 then some ⟨(s.reg x).toNat, h⟩ else none

/-- The hundreds digit of a byte, `floor(v / 100)` (R97). -/
def hundreds (v : Byte) : Byte := BitVec.ofNat 8 (v.toNat / 100)

/-- The tens digit of a byte, `floor(v / 10) mod 10` (R97). -/
def tens (v : Byte) : Byte := BitVec.ofNat 8 (v.toNat / 10 % 10)

/-- The units digit of a byte, `v mod 10` (R97). -/
def units (v : Byte) : Byte := BitVec.ofNat 8 (v.toNat % 10)

/-- Store the registers `V[0]`..`V[count-1]` at `I`, `I+1`, ..., in ascending order (R98). -/
def State.storeBlock (s : State) : Nat → State
  | 0 => s
  | k + 1 => (s.storeBlock k).memWrite (s.indexAddr k) (s.reg (Fin.ofNat 16 k))

/-- Load the registers `V[0]`..`V[count-1]` from `I`, `I+1`, ..., in ascending order (R99). -/
def State.loadBlock (s : State) : Nat → State
  | 0 => s
  | k + 1 => (s.loadBlock k).setReg (Fin.ofNat 16 k) (s.memRead (s.indexAddr k))

/-- The post-increment of the block moves: `I <- (I + x + 1) mod 65536` (R98, R99). -/
def State.bumpI (s : State) (x : Reg) : State := s.setI (s.i + BitVec.ofNat 16 (x.val + 1))

end Sys2Proof.Machine
end

