-- ==== Sys2Proof/Machine/Flags.lean ====
section
/-! DEFINITION. What the flag-writing instructions write to VF (10_state.md R28): the carry, the strict not-borrow,
the bit shifted out. The collision flag is computed with the drawing, in Machine/Display.lean. -/

namespace Sys2Proof.Machine

/-- A flag as it is written to VF: 1 or 0. -/
def flagByte (c : Bool) : Byte := if c then 1 else 0

/-- The carry of `8xy4`: `V[x] + V[y] > 255` (R87). -/
def carryFlag (a b : Byte) : Bool := decide (255 < a.toNat + b.toNat)

/-- The not-borrow of `8xy5` and `8xy7`, strict: `a > b` (R88, R90). -/
def notBorrowFlag (a b : Byte) : Bool := decide (b.toNat < a.toNat)

/-- The bit `8xy6` shifts out, `V[x] & 1`, as a byte (R89). -/
def shiftOutLow (a : Byte) : Byte := a &&& 1

/-- The bit `8xyE` shifts out, `V[x] >> 7`, as a byte (R91). -/
def shiftOutHigh (a : Byte) : Byte := a >>> 7

end Sys2Proof.Machine
end

