-- ==== Sys2Proof/Machine/ControlTransfer.lean ====
section
/-! DEFINITION. Control transfer: `00EE`, `0nnn`, `1nnn`, `2nnn`, `Bnnn` (41_control_transfer.md). While a meaning
runs, `s.pc` is the instruction's own address p (R62). -/

namespace Sys2Proof.Machine

/-- `00EE` RET (R69): the popped value plus 2, mod 65536; `StackUnderflow` on an empty stack. -/
def execRet (s : State) : Host.Outcome State Fault Refusal :=
  match s.pop with
  | some (a, t) => .next (t.setPc (a + 2))
  | none => .next (s.raiseFault .stackUnderflow)

/-- `0nnn` SYS nnn (R70): executed as a jump; nothing is pushed. -/
def execSys (nnn : Imm12) (s : State) : Host.Outcome State Fault Refusal := .next (s.setPc (zextAddr nnn))

/-- `1nnn` JP nnn (R71). -/
def execJp (nnn : Imm12) (s : State) : Host.Outcome State Fault Refusal := .next (s.setPc (zextAddr nnn))

/-- `2nnn` CALL nnn (R72): pushes the call's own address; `StackOverflow` with 16 on the stack. -/
def execCall (nnn : Imm12) (s : State) : Host.Outcome State Fault Refusal :=
  match s.push s.pc with
  | some t => .next (t.setPc (zextAddr nnn))
  | none => .next (s.raiseFault .stackOverflow)

/-- `Bnnn` JP V0, nnn (R73): the sum is not masked. -/
def execJpV0 (nnn : Imm12) (s : State) : Host.Outcome State Fault Refusal :=
  .next (s.setPc (zextAddr nnn + zextByte (s.reg 0)))

end Sys2Proof.Machine
end

