-- ==== Sys2Proof/Machine/Display.lean ====
section
/-! DEFINITION. The display: `00E0` and `Dxyn` (46_display.md). -/

namespace Sys2Proof.Machine

/-- What a drawing works on: the framebuffer and whether a pixel has gone from 1 to 0 so far (R108). -/
structure Canvas where
  fb : Framebuffer
  hit : Bool
  deriving DecidableEq, Repr

/-- Flip one pixel, noting a collision (R108). -/
def flipPixel (p : Canvas) (r : Fin 32) (c : Fin 64) : Canvas :=
  ⟨p.fb.flip r c, p.hit || p.fb.pixel r c⟩

/-- Column offset `c` of a sprite row: bit `7 - c` of the byte flips the pixel in column `(cx + c) mod 64` (R105,
R106). -/
def drawBit (b : Byte) (cx : Nat) (rr : Fin 32) (p : Canvas) (c : Nat) : Canvas :=
  if b.getLsbD (7 - c) then flipPixel p rr (Fin.ofNat 64 (cx + c)) else p

/-- One sprite row: 8 pixels, left to right (R105). -/
def drawRow (b : Byte) (cx : Nat) (rr : Fin 32) (p : Canvas) : Canvas :=
  (List.range 8).foldl (drawBit b cx rr) p

/-- Sprite row `r`: the byte at `I + r` in screen row `(cy + r) mod 32` (R105, R106). -/
def State.drawSpriteRow (s : State) (cx cy : Nat) (p : Canvas) (r : Nat) : Canvas :=
  drawRow (s.memRead (s.indexAddr r)) cx (Fin.ofNat 32 (cy + r)) p

/-- The `n` sprite rows, top to bottom, on the machine's framebuffer (R108). -/
def State.drawSprite (s : State) (cx cy n : Nat) : Canvas :=
  (List.range n).foldl (s.drawSpriteRow cx cy) ⟨s.fb, false⟩

/-- `00E0` CLS (R107): every pixel 0; `redraw` is not set. -/
def execCls (s : State) : Host.Outcome State Fault Refusal :=
  .next { s with fb := Framebuffer.clear }.advance

/-- `Dxyn` DRW Vx, Vy, n (R108): the coordinates are read before VF is written. -/
def execDrw (x y : Reg) (n : Imm4) (s : State) : Host.Outcome State Fault Refusal :=
  let p := s.drawSprite (s.reg x).toNat (s.reg y).toNat n.toNat
  .next ({ s with fb := p.fb, redraw := true }.setVF (flagByte p.hit)).advance

end Sys2Proof.Machine
end

