-- ==== Sys2Proof/Machine/IndexMemory.lean ====
section
/-! DEFINITION. The index register and the memory transfers: `Annn`, `Fx1E`, `Fx29`, `Fx33`, `Fx55`, `Fx65`
(44_index_memory.md). -/

namespace Sys2Proof.Machine

/-- `Annn` LD I, nnn (R94). -/
def execLdI (nnn : Imm12) (s : State) : Host.Outcome State Fault Refusal :=
  .next (s.setI (zextAddr nnn)).advance

/-- `Fx1E` ADD I, Vx (R95): mod 65536, VF untouched. -/
def execAddI (x : Reg) (s : State) : Host.Outcome State Fault Refusal :=
  .next (s.setI (s.i + zextByte (s.reg x))).advance

/-- `Fx29` LD F, Vx (R96): the whole byte times 5; pc advances (90_conflicts.md C4). -/
def execLdF (x : Reg) (s : State) : Host.Outcome State Fault Refusal :=
  .next (s.setI (zextByte (s.reg x) * BitVec.ofNat 16 Config.glyphStride)).advance

/-- `Fx33` LD B, Vx (R97): hundreds, tens, units at `I`, `I+1`, `I+2`; `I` is kept. -/
def execLdB (x : Reg) (s : State) : Host.Outcome State Fault Refusal :=
  let v := s.reg x
  .next (((s.memWrite (s.indexAddr 0) (hundreds v)).memWrite (s.indexAddr 1) (tens v)).memWrite
    (s.indexAddr 2) (units v)).advance

/-- `Fx55` LD [I], Vx (R98): `V[0]`..`V[x]` to memory, then `I <- I + x + 1`. -/
def execStoreRegs (x : Reg) (s : State) : Host.Outcome State Fault Refusal :=
  .next ((s.storeBlock (x.val + 1)).bumpI x).advance

/-- `Fx65` LD Vx, [I] (R99): `V[0]`..`V[x]` from memory, then `I <- I + x + 1`. -/
def execLoadRegs (x : Reg) (s : State) : Host.Outcome State Fault Refusal :=
  .next ((s.loadBlock (x.val + 1)).bumpI x).advance

end Sys2Proof.Machine
end

