-- ==== Sys2Proof/Machine/RegisterAlu.lean ====
section
/-! DEFINITION. Register loads and the ALU: `6xkk`, `7xkk`, `8xy0`..`8xyE`, `Cxkk` (43_register_alu.md). Where a flag
is written, the statements stand in R11's order, and a name ending in `1` is the state after the VF write. -/

namespace Sys2Proof.Machine

/-- `6xkk` LD Vx, kk (R81). -/
def execLdImm (x : Reg) (kk : Imm8) (s : State) : Host.Outcome State Fault Refusal :=
  .next (s.setReg x kk).advance

/-- `7xkk` ADD Vx, kk (R82): mod 256, no flag. -/
def execAddImm (x : Reg) (kk : Imm8) (s : State) : Host.Outcome State Fault Refusal :=
  .next (s.setReg x (s.reg x + kk)).advance

/-- `8xy0` LD Vx, Vy (R83). -/
def execLdReg (x y : Reg) (s : State) : Host.Outcome State Fault Refusal :=
  .next (s.setReg x (s.reg y)).advance

/-- `8xy1` OR Vx, Vy (R84). -/
def execOrReg (x y : Reg) (s : State) : Host.Outcome State Fault Refusal :=
  .next (s.setReg x (s.reg x ||| s.reg y)).advance

/-- `8xy2` AND Vx, Vy (R85). -/
def execAndReg (x y : Reg) (s : State) : Host.Outcome State Fault Refusal :=
  .next (s.setReg x (s.reg x &&& s.reg y)).advance

/-- `8xy3` XOR Vx, Vy (R86). -/
def execXorReg (x y : Reg) (s : State) : Host.Outcome State Fault Refusal :=
  .next (s.setReg x (s.reg x ^^^ s.reg y)).advance

/-- `8xy4` ADD Vx, Vy (R87): the sum is taken before the VF write, and `V[x]` is written after it. -/
def execAddReg (x y : Reg) (s : State) : Host.Outcome State Fault Refusal :=
  let sum := s.reg x + s.reg y
  let s1 := s.setVF (flagByte (carryFlag (s.reg x) (s.reg y)))
  .next (s1.setReg x sum).advance

/-- `8xy5` SUB Vx, Vy (R88): the difference reads the registers after the VF write. -/
def execSubReg (x y : Reg) (s : State) : Host.Outcome State Fault Refusal :=
  let s1 := s.setVF (flagByte (notBorrowFlag (s.reg x) (s.reg y)))
  .next (s1.setReg x (s1.reg x - s1.reg y)).advance

/-- `8xy6` SHR Vx (R89): the shift reads `V[x]` after the VF write; `y` is not used. -/
def execShr (x _y : Reg) (s : State) : Host.Outcome State Fault Refusal :=
  let s1 := s.setVF (shiftOutLow (s.reg x))
  .next (s1.setReg x (s1.reg x >>> 1)).advance

/-- `8xy7` SUBN Vx, Vy (R90): the difference reads the registers after the VF write. -/
def execSubn (x y : Reg) (s : State) : Host.Outcome State Fault Refusal :=
  let s1 := s.setVF (flagByte (notBorrowFlag (s.reg y) (s.reg x)))
  .next (s1.setReg x (s1.reg y - s1.reg x)).advance

/-- `8xyE` SHL Vx (R91): the shift reads `V[x]` after the VF write; `y` is not used. -/
def execShl (x _y : Reg) (s : State) : Host.Outcome State Fault Refusal :=
  let s1 := s.setVF (shiftOutHigh (s.reg x))
  .next (s1.setReg x (s1.reg x <<< 1)).advance

/-- `Cxkk` RND Vx, kk (R92): one random byte, a free value, masked by the immediate. -/
def execRnd (x : Reg) (kk : Imm8) (s : State) : Host.Outcome State Fault Refusal :=
  .next ((s.drawByte.2).setReg x (s.drawByte.1 &&& kk)).advance

end Sys2Proof.Machine
end

