-- ==== Sys2Proof/Machine/Skips.lean ====
section
/-! DEFINITION. Conditional skips: `3xkk`, `4xkk`, `5xy0`, `9xy0`, `Ex9E`, `ExA1` (42_conditional_skip.md). -/

namespace Sys2Proof.Machine

/-- `3xkk` SE Vx, kk (R75). -/
def execSeImm (x : Reg) (kk : Imm8) (s : State) : Host.Outcome State Fault Refusal :=
  .next (s.skipIf (s.reg x == kk))

/-- `4xkk` SNE Vx, kk (R76). -/
def execSneImm (x : Reg) (kk : Imm8) (s : State) : Host.Outcome State Fault Refusal :=
  .next (s.skipIf (s.reg x != kk))

/-- `5xy0` SE Vx, Vy (R77). -/
def execSeReg (x y : Reg) (s : State) : Host.Outcome State Fault Refusal :=
  .next (s.skipIf (s.reg x == s.reg y))

/-- `9xy0` SNE Vx, Vy (R78). -/
def execSneReg (x y : Reg) (s : State) : Host.Outcome State Fault Refusal :=
  .next (s.skipIf (s.reg x != s.reg y))

/-- `Ex9E` SKP Vx (R79): `KeyIndexOutOfRange` where `V[x] > 15`. -/
def execSkp (x : Reg) (s : State) : Host.Outcome State Fault Refusal :=
  match s.keyIndex x with
  | some k => .next (s.skipIf (s.keyPressed k))
  | none => .next (s.raiseFault .keyIndexOutOfRange)

/-- `ExA1` SKNP Vx (R80): `KeyIndexOutOfRange` where `V[x] > 15`. -/
def execSknp (x : Reg) (s : State) : Host.Outcome State Fault Refusal :=
  match s.keyIndex x with
  | some k => .next (s.skipIf (!s.keyPressed k))
  | none => .next (s.raiseFault .keyIndexOutOfRange)

end Sys2Proof.Machine
end

