-- ==== Sys2Proof/Machine/TimersKeypad.lean ====
section
/-! DEFINITION. Timers and the key wait: `Fx07`, `Fx0A`, `Fx15`, `Fx18` (45_timers_keypad.md). The decay of the same
cycle follows the meaning (R63), in Machine/Cycle.lean. -/

namespace Sys2Proof.Machine

/-- `Fx07` LD Vx, DT (R100). -/
def execLdVxDt (x : Reg) (s : State) : Host.Outcome State Fault Refusal :=
  .next (s.setReg x s.dt).advance

/-- `Fx0A` LD Vx, K (R101): the least pressed key; with none pressed nothing is written and `pc` stays, so the next
cycle fetches the same instruction. -/
def execLdVxK (x : Reg) (s : State) : Host.Outcome State Fault Refusal :=
  match s.leastKey with
  | some k => .next (s.setReg x (BitVec.ofNat 8 k)).advance
  | none => .next s

/-- `Fx15` LD DT, Vx (R102). -/
def execLdDtVx (x : Reg) (s : State) : Host.Outcome State Fault Refusal :=
  .next (s.setDT (s.reg x)).advance

/-- `Fx18` LD ST, Vx (R103). -/
def execLdStVx (x : Reg) (s : State) : Host.Outcome State Fault Refusal :=
  .next (s.setST (s.reg x)).advance

end Sys2Proof.Machine
end

