-- ==== Sys2Proof/Machine/Cycle.lean ====
section
/-! DEFINITION. The fetch-decode-execute cycle (40_engine_cycle.md R58 to R66): what one call of the engine does to
the state, and what it returns beside it. -/

namespace Sys2Proof.Machine

/-- The outcomes of a cycle that has a next state (R59). The fourth, `Refused`, has none (R66) and is
`Host.Outcome.refused`. -/
inductive CycleOutcome where
  | executed
  | waiting
  | fault (f : FaultRecord)
  deriving DecidableEq, Repr

/-- A cycle's result: the next state, and the two outputs that are not state, the outcome and the tone (R25, R58). -/
structure CycleResult where
  state : State
  outcome : CycleOutcome
  tone : Bool
  deriving DecidableEq, Repr

/-- The instruction waits in this state: `Fx0A` with no key pressed (R59, R101). -/
def waitsForKey (i : Instr) (s : State) : Bool :=
  match i with
  | .ldVxK _ => s.leastKey.isNone
  | _ => false

/-- The outcome of an executed instruction: `t` is the state it left (R59). -/
def outcomeOf (i : Instr) (s t : State) : CycleOutcome :=
  match t.status with
  | .halted f => .fault f
  | .running | .uninitialised => if waitsForKey i s then .waiting else .executed

/-- Steps 3 to 5 of a running machine's cycle, for the decoded instruction (R60). -/
def runInstr (i : Instr) (s : State) : Host.Outcome CycleResult Fault Refusal :=
  match exec i s with
  | .next t => .next ⟨t.endCycle, outcomeOf i s t, t.toneNow⟩
  | .fault r => .fault r
  | .refused r => .refused r

/-- The cycle of a running machine: fetch, decode, then the instruction or `InvalidOpcode` (R60, R61, R62). -/
def runCycle (s : State) : Host.Outcome CycleResult Fault Refusal :=
  match decodeWord s.fetchWord with
  | some i => runInstr i s
  | none => .next ⟨s.raiseFault .invalidOpcode, .fault (s.faultRecord .invalidOpcode), false⟩

/-- One cycle (R60, R66). A halted machine keeps its state and returns its fault again, with no tone; a machine that
was never reset is refused. -/
def cycle (s : State) : Host.Outcome CycleResult Fault Refusal :=
  match s.status with
  | .running => runCycle s
  | .halted f => .next ⟨s, .fault f, false⟩
  | .uninitialised => .refused .uninitialised

/-- The next state of a cycle's result. -/
def dropOutputs : Host.Outcome CycleResult Fault Refusal → Host.Outcome State Fault Refusal
  | .next c => .next c.state
  | .fault r => .fault r
  | .refused r => .refused r

/-- The state with the given word stored where the next cycle fetches, and running: the machine fetches its
instruction at `pc` and `pc + 1`, so nothing else has to change. -/
def State.placeWord (s : State) (hi lo : Byte) : State :=
  { (s.memWrite s.pc.toNat hi).memWrite (s.pc.toNat + 1) lo with status := .running }

end Sys2Proof.Machine
end

