-- ==== Sys2Proof/Machine/Step.lean ====
section
/-! DEFINITION. One step of the machine: one cycle, less its two outputs (40_engine_cycle.md R58, R60). -/

namespace Sys2Proof.Machine

/-- One cycle's next state, fault or refusal. The outputs of the same cycle are in `cycle`. -/
def step (s : State) : Host.Outcome State Fault Refusal := dropOutputs (cycle s)

/-- `s` with the table's instruction (`nbits` bits `w`) stored where the next step fetches (notes/assumptions/6.md). -/
def State.withFetchWord (s : State) (nbits w : Nat) : State :=
  s.placeWord (tableBytes nbits w).1 (tableBytes nbits w).2

end Sys2Proof.Machine
end

