-- ==== Sys2Proof/Machine/HostActions.lean ====
section
/-! DEFINITION. What the host can do between cycles (60_exceptions.md R120): load a ROM (70_reset_and_hazards.md R126),
reset (R124), write the keypad, read the framebuffer, read and clear the redraw flag. -/

namespace Sys2Proof.Machine

/-- What the host's byte source yields: some bytes, or a failed read (93_implementation_defined.md U14). -/
inductive RomSource where
  | unreadable
  | bytes (image : List Byte)
  deriving DecidableEq, Repr

/-- What the loader returns (R126). -/
inductive LoadResult where
  | ok
  | romTooLarge
  | romUnreadable
  deriving DecidableEq, Repr

/-- The numeric code of a load error (R109). -/
def LoadResult.code : LoadResult → Option Nat
  | .ok => none
  | .romTooLarge => some 16
  | .romUnreadable => some 17

/-- Copy bytes to memory from address `a` upward (R126). -/
def State.copyBytes : List Byte → Nat → State → State
  | [], _, s => s
  | b :: bs, a, s => State.copyBytes bs (a + 1) (s.memWrite a b)

/-- Load a ROM: read the source, reset, check the size, copy, in that order (R126, R127). -/
def State.loadRom (s : State) : RomSource → LoadResult × State
  | .unreadable => (.romUnreadable, s)
  | .bytes image =>
    if Config.romMax < image.length then (.romTooLarge, s.hostReset)
    else (.ok, State.copyBytes image Config.romBase s.hostReset)

/-- Write one key of the keypad (R22, R120). -/
def State.writeKey (s : State) (k : Fin 16) (pressed : Bool) : State :=
  { s with keypad := s.keypad.set k.val pressed k.isLt }

/-- Write all 16 keys (R22, R120). -/
def State.writeKeypad (s : State) (keys : Vector Bool 16) : State := { s with keypad := keys }

/-- Read the framebuffer: 2048 bytes of value 0 or 1, row by row (R21, R120). No state changes. -/
def State.readFramebuffer (s : State) : List Byte :=
  s.fb.toList.flatMap (fun row => row.toList.map (fun p => if p then 1 else 0))

/-- Read and clear the redraw flag (R23, R120): the old value goes back to the host. -/
def State.readClearRedraw (s : State) : Bool × State := (s.redraw, { s with redraw := false })

/-- The host's moves that can change the state (R120). Reading the framebuffer changes nothing, and the random byte
is the free value of `Cxkk`. -/
inductive HostAction where
  | load (source : RomSource)
  | reset
  | key (k : Fin 16) (pressed : Bool)
  | keypad (keys : Vector Bool 16)
  | clearRedraw
  deriving DecidableEq, Repr

/-- The state after a host action. -/
def State.hostAct (s : State) : HostAction → State
  | .load source => (s.loadRom source).2
  | .reset => s.hostReset
  | .key k pressed => s.writeKey k pressed
  | .keypad keys => s.writeKeypad keys
  | .clearRedraw => s.readClearRedraw.2

end Sys2Proof.Machine
end

