-- ==== Sys2Proof/Safety.lean ====
section
/-! DEFINITION. The terms that statements about the machine are written in: what an instruction may change (its
frame), what each instruction writes, when a cycle faults, the invariant, a sprite as a picture, and runs under any
host schedule (40_engine_cycle.md R67). Nothing here is used by the machine. -/

namespace Sys2Proof.Machine

/-! ### Frames -/

/-- The pieces of state that may change. Each is off unless named; `pc` is not listed, since every instruction may
change it. -/
structure Changes where
  /-- registers -/
  regs : List Reg := []
  i : Bool := false
  /-- numbers of stack slots -/
  slots : List Nat := []
  sp : Bool := false
  dt : Bool := false
  st : Bool := false
  /-- addresses of memory, in 0..4095 -/
  mem : List Nat := []
  fb : Bool := false
  redraw : Bool := false
  status : Bool := false
  /-- random bytes drawn -/
  draws : Bool := false
  deriving DecidableEq, Repr

/-- From `s` to `t` nothing changes but `pc` and what `c` names: every other register, stack slot and byte of memory
holds what it held. The keypad and the parameter `GLYPHS` never change. -/
def Frame (c : Changes) (s t : State) : Prop :=
  (∀ r : Reg, r ∉ c.regs → t.reg r = s.reg r) ∧
  (c.i = false → t.i = s.i) ∧
  (∀ k : Fin 16, k.val ∉ c.slots → t.stack[k] = s.stack[k]) ∧
  (c.sp = false → t.sp = s.sp) ∧
  (c.dt = false → t.dt = s.dt) ∧
  (c.st = false → t.st = s.st) ∧
  (∀ a : Nat, maskAddr a ∉ c.mem → t.memRead a = s.memRead a) ∧
  (c.fb = false → t.fb = s.fb) ∧
  (c.redraw = false → t.redraw = s.redraw) ∧
  (c.status = false → t.status = s.status) ∧
  (c.draws = false → t.draws = s.draws) ∧
  t.keypad = s.keypad ∧
  t.glyphs = s.glyphs

/-! ### What each instruction writes -/

/-- The `count` addresses stored to from `I` upward, masked: those of `Fx33` (3) and `Fx55` (x + 1). -/
def storedAddrs (s : State) (count : Nat) : List Nat := (List.range count).map (fun k => maskAddr (s.indexAddr k))

/-- The addresses an instruction stores to (20_memory.md R33). -/
def storedBy (i : Instr) (s : State) : List Nat :=
  match i with
  | .ldB _ => storedAddrs s 3
  | .storeRegs x => storedAddrs s (x.val + 1)
  | _ => []

/-- The general registers an instruction may write (10_state.md R12, R28). -/
def writesReg (i : Instr) (r : Reg) : Bool :=
  match i with
  | .ldImm x _ | .addImm x _ | .ldReg x _ | .orReg x _ | .andReg x _ | .xorReg x _ | .rnd x _ | .ldVxDt x
  | .ldVxK x => r == x
  | .addReg x _ | .subReg x _ | .shr x _ | .subn x _ | .shl x _ => r == x || r == Reg.vf
  | .drw _ _ _ => r == Reg.vf
  | .loadRegs x => decide (r.val ≤ x.val)
  | _ => false

/-- The instruction may write `I` (10_state.md R15). -/
def writesI : Instr → Bool
  | .ldI _ | .addI _ | .ldF _ | .storeRegs _ | .loadRegs _ => true
  | _ => false

/-- The instruction reads the keypad (10_state.md R22). -/
def readsKeypad : Instr → Bool
  | .skp _ | .sknp _ | .ldVxK _ => true
  | _ => false

/-! ### When a cycle faults -/

/-- The cause of the fault that the next cycle of a running machine raises, `none` where it raises none: the four
causes of 60_exceptions.md R109. -/
def faultCause (s : State) : Option FaultKind :=
  match decodeWord s.fetchWord with
  | none => some .invalidOpcode
  | some (.call _) => if s.sp.val = 16 then some .stackOverflow else none
  | some .ret => if s.sp.val = 0 then some .stackUnderflow else none
  | some (.skp x) => if 15 < (s.reg x).toNat then some .keyIndexOutOfRange else none
  | some (.sknp x) => if 15 < (s.reg x).toNat then some .keyIndexOutOfRange else none
  | some _ => none

/-- The state after a fault of this kind: only the status changes (R65, R111). -/
def haltedWith (s : State) (k : FaultKind) : State := { s with status := .halted ⟨k, s.pc, s.fetchWord⟩ }

/-! ### The invariant -/

/-- Memory is canonical, and a halted machine's record names its `pc` and the word there (R111). -/
def MachineInv (s : State) : Prop :=
  s.memWf = true ∧ ∀ f : FaultRecord, s.status = .halted f → f.pc = s.pc ∧ f.word = s.fetchWord

/-! ### A sprite as a picture -/

/-- The sprite of `n` rows at `I`, drawn at column `cx` and row `cy`, has a 1 bit on screen pixel (r, c): the pixel
lies `dr` rows below and `dc` columns right of the start, counted around the screen, within `n` rows and 8 columns,
and bit `7 - dc` of sprite byte `dr` is 1 (46_display.md R105, R106). -/
def spritePixel (s : State) (cx cy n : Nat) (r : Fin 32) (c : Fin 64) : Bool :=
  let dr := (r.val + 32 - cy % 32) % 32
  let dc := (c.val + 64 - cx % 64) % 64
  decide (dr < n) && decide (dc < 8) && (s.memRead (s.indexAddr dr)).getLsbD (7 - dc)

/-! ### Runs under a host schedule -/

/-- What happens next in a run: a cycle, or one action of the host between cycles (R67). -/
inductive Event where
  | cycle
  | host (a : HostAction)
  deriving DecidableEq, Repr

/-- The run of a list of events, up to the first step that has no next state (R66: a cycle of a machine that was
never reset). -/
def runEvents : List Event → State → Host.Outcome State Fault Refusal
  | [], s => .next s
  | .host a :: es, s => runEvents es (s.hostAct a)
  | .cycle :: es, s =>
    match step s with
    | .next t => runEvents es t
    | .fault r => .fault r
    | .refused r => .refused r

end Sys2Proof.Machine
end

