-- ==== Sys2Proof/Certificates/Slice0/Obligations.lean ====
section
/-! DEFINITION. The statements about the machine, for the provers. Each docstring names the rule of spec/ it states;
where it rests on a choice (a decision of 92_eei_decisions.md, an entry of notes/assumptions), it says so. -/

open Sys2Proof Sys2Proof.Machine

/-! ### Encoding -/

/-- Decoding the two bytes of a well-formed instruction gives it back, with whatever follows them (30_encoding.md
R48, R52, R55). The encoder is the model's own. -/
def Obligations.DecodeOfEncodedBytesGivesTheInstruction : Prop :=
  ∀ (i : Instr) (rest : List Byte), i.wellFormed = true → decode (encodeBytes i ++ rest) = .ok (i, rest)

/-- A word that decodes is the encoding of what it decodes to, which is well formed: no bit of a word is dropped
(the unused `y` of `8xy6` and `8xyE` included). -/
def Obligations.EncodeOfDecodedWordGivesTheWord : Prop :=
  ∀ (w : Word) (i : Instr), decodeWord w = some i → encode i = w ∧ i.wellFormed = true

/-- R52: the decoder is the table of 35 rows read top to bottom, and outside family 0 at most one row matches. -/
def Obligations.DecoderFollowsTheOpcodeMap : Prop :=
  (∀ w : Word, decodeWord w = decodeByMap w) ∧ opcodeMap.length = 35 ∧
  ∀ w : Word, Word.op w ≠ 0 → (opcodeMap.filter (·.matches w)).length ≤ 1

/-- R53's five groups are exactly the words that decode to nothing (decision D5: unmatched sub-operations are
illegal, families 5 and 9 are strict). -/
def Obligations.IllegalWordsAreTheFiveGroups : Prop :=
  ∀ w : Word, decodeWord w = none ↔
    (Word.op w = 0x5 ∧ Word.n w ≠ 0) ∨
    (Word.op w = 0x8 ∧ Word.n w ∈ ([0x8, 0x9, 0xA, 0xB, 0xC, 0xD, 0xF] : List (BitVec 4))) ∨
    (Word.op w = 0x9 ∧ Word.n w ≠ 0) ∨
    (Word.op w = 0xE ∧ Word.kk w ≠ 0x9E ∧ Word.kk w ≠ 0xA1) ∨
    (Word.op w = 0xF ∧
      Word.kk w ∉ ([0x07, 0x0A, 0x15, 0x18, 0x1E, 0x29, 0x33, 0x55, 0x65] : List (BitVec 8)))

/-- A few words of 95_test_vectors.md decode to the instruction they stand for. -/
def Obligations.SampleWordsDecodeToTheirInstructions : Prop :=
  decodeWord 0x00E0 = some .cls ∧ decodeWord 0x00E1 = some (.sys 0x0E1) ∧ decodeWord 0x2206 = some (.call 0x206) ∧
  decodeWord 0x5340 = some (.seReg 3 4) ∧ decodeWord 0x8F15 = some (.subReg 15 1) ∧
  decodeWord 0x8036 = some (.shr 0 3) ∧ decodeWord 0xC30F = some (.rnd 3 0x0F) ∧
  decodeWord 0xD012 = some (.drw 0 1 2) ∧ decodeWord 0xE0A1 = some (.sknp 0) ∧
  decodeWord 0xFA33 = some (.ldB 10) ∧ decodeWord 0x8008 = none ∧ decodeWord 0x9341 = none

/-- The word the host places is the word the next cycle fetches, and placing it changes nothing but the two bytes at
`pc` and the status, which becomes Running (notes/assumptions/6.md; the model's own operation). -/
def Obligations.PlacedWordIsTheFetchedWord : Prop :=
  ∀ (s : State) (nbits w : Nat),
    (s.withFetchWord nbits w).fetchWord = BitVec.ofNat 16 (w % 2 ^ nbits) ∧
    (s.withFetchWord nbits w).status = .running ∧ (s.withFetchWord nbits w).pc = s.pc ∧
    Frame { mem := [maskAddr s.pc.toNat, maskAddr (s.pc.toNat + 1)], status := true } s (s.withFetchWord nbits w)

/-! ### The cycle -/

/-- A step of a running machine whose word at `pc` decodes to `i` is `exec i`, followed by the decay of both timers
where `i` left the machine running and by nothing where it raised a fault (40_engine_cycle.md R60, R62, R63, R65). -/
def Obligations.StepRunsTheDecodedInstruction : Prop :=
  ∀ (s : State) (i : Instr), s.status = .running → decodeWord s.fetchWord = some i →
    step s = match exec i s with
      | .next t =>
        .next (if t.status = .running then { t with dt := decayTimer t.dt, st := decayTimer t.st } else t)
      | .fault r => .fault r
      | .refused r => .refused r

/-- R61: the fetched word is `mem[pc mod 4096] * 256 + mem[(pc + 1) mod 4096]`, for every `pc`, odd ones and those
above 0x0FFF included. -/
def Obligations.FetchReadsTheBigEndianWordAtPc : Prop :=
  ∀ s : State, s.fetchWord.toNat =
    (s.memRead (s.pc.toNat % 4096)).toNat * 256 + (s.memRead ((s.pc.toNat + 1) % 4096)).toNat

/-- A cycle with one of the four causes of R109 halts the machine with the record (kind, pc, word) and changes nothing
else: no decay, no tone, and the fault is the outcome (R65, R110, R111, R112, R113; decisions D5, D6, D12, D21;
notes/assumptions/1.md: the halted state is a next state). -/
def Obligations.FaultingCycleChangesOnlyTheStatus : Prop :=
  ∀ (s : State) (k : FaultKind), s.status = .running → faultCause s = some k →
    cycle s = .next ⟨haltedWith s k, .fault ⟨k, s.pc, s.fetchWord⟩, false⟩ ∧ step s = .next (haltedWith s k)

/-- A cycle with none of the four causes completes and leaves the machine running: no other event halts, stops or
refuses a running machine. It waits exactly where `Fx0A` finds no key pressed, with `pc` unchanged (R59, R109, R113;
decisions D14, D17). -/
def Obligations.CycleWithoutAFaultCauseCompletes : Prop :=
  ∀ s : State, s.status = .running → faultCause s = none →
    ∃ c : CycleResult, cycle s = .next c ∧ step s = .next c.state ∧ c.state.status = .running ∧
      (c.outcome = .executed ∨ c.outcome = .waiting) ∧
      (c.outcome = .waiting ↔
        (∃ x : Reg, decodeWord s.fetchWord = some (.ldVxK x)) ∧ ∀ k : Fin 16, s.keyPressed k = false) ∧
      (c.outcome = .waiting → c.state.pc = s.pc)

/-- A cycle of a halted machine returns its fault again with no tone and changes nothing, a cycle of a machine that was
never reset is refused, and no other machine is without a next state (R24, R66; decisions D17, D18;
notes/assumptions/1.md). -/
def Obligations.HaltedOrUnresetMachineRunsNothing : Prop :=
  ∀ s : State,
    (∀ f : FaultRecord, s.status = .halted f → cycle s = .next ⟨s, .fault f, false⟩ ∧ step s = .next s) ∧
    (s.status = .uninitialised → cycle s = .refused .uninitialised ∧ step s = .refused .uninitialised) ∧
    ((∃ t : State, step s = .next t) ↔ s.status ≠ .uninitialised)

/-- R63: in every completed cycle both timers lose 1 if nonzero, after the instruction's own writes (`u` is the state
it left), the tone is `ST = 1` just before, and nothing else changes; a cycle whose outcome is a fault, of a halted
machine too, decays nothing and gives no tone. -/
def Obligations.CompletedCycleDecaysBothTimers : Prop :=
  (∀ (s u : State) (i : Instr), s.status = .running → decodeWord s.fetchWord = some i → exec i s = .next u →
    u.status = .running →
    ∃ c : CycleResult, cycle s = .next c ∧ c.state.dt.toNat = u.dt.toNat - 1 ∧
      c.state.st.toNat = u.st.toNat - 1 ∧ (c.tone = true ↔ u.st.toNat = 1) ∧ c.state.pc = u.pc ∧
      Frame { dt := true, st := true } u c.state) ∧
  ∀ (s : State) (c : CycleResult) (f : FaultRecord), cycle s = .next c → c.outcome = .fault f →
    c.state.dt = s.dt ∧ c.state.st = s.st ∧ c.tone = false

/-- R25: the tone is true exactly when the cycle's decay takes ST from 1 to 0. A cycle of a halted machine runs no
instruction and has no decay, so its tone is false. -/
def Obligations.ToneMarksSoundTimerGoingFromOneToZero : Prop :=
  ∀ (s : State) (c : CycleResult), cycle s = .next c →
    (c.tone = true ↔
      s.status = .running ∧ ∃ (i : Instr) (u : State), decodeWord s.fetchWord = some i ∧ exec i s = .next u ∧ u.status = .running ∧
        u.st.toNat = 1 ∧ c.state.st.toNat = 0)

/-! ### Who writes and reads what: rules over all instructions -/

/-- A general register, VF included, is written only by the instructions that 10_state.md R12 and R28 list, and each
writes only the registers it names. -/
def Obligations.RegistersAreWrittenOnlyByTheirInstructions : Prop :=
  ∀ (i : Instr) (s t : State) (r : Reg), exec i s = .next t → writesReg i r = false → t.reg r = s.reg r

/-- I is written only by the five instructions of R15, the stack and SP only by `2nnn` and `00EE` (R16, R17: one slot,
one count), DT only by `Fx15` and ST only by `Fx18` besides the decay (R18, R19). -/
def Obligations.IndexStackAndTimersAreWrittenOnlyByTheirInstructions : Prop :=
  ∀ (i : Instr) (s t : State), exec i s = .next t →
    (writesI i = false → t.i = s.i) ∧
    ((t.stack ≠ s.stack → ∃ nnn, i = .call nnn) ∧
      ∀ k : Fin 16, k.val ≠ s.sp.val → t.stack[k] = s.stack[k]) ∧
    (t.sp ≠ s.sp →
      (i = .ret ∧ t.sp.val + 1 = s.sp.val) ∨ ((∃ nnn, i = .call nnn) ∧ t.sp.val = s.sp.val + 1)) ∧
    (t.dt ≠ s.dt → ∃ x, i = .ldDtVx x) ∧
    (t.st ≠ s.st → ∃ x, i = .ldStVx x)

/-- No step changes a byte of memory but those that `Fx33` and `Fx55` store to (R33, R47). -/
def Obligations.MemoryIsWrittenOnlyByTheTwoStores : Prop :=
  ∀ (s t : State) (a : Nat), step s = .next t →
    (∀ i : Instr, decodeWord s.fetchWord = some i → maskAddr a ∉ storedBy i s) → t.memRead a = s.memRead a

/-- A step changes the framebuffer only for `00E0` and `Dxyn`, raises `redraw` only for `Dxyn`, and never clears it
(R21, R23; decision D15 that `00E0` does not raise it). -/
def Obligations.DisplayIsWrittenOnlyByClearAndDraw : Prop :=
  ∀ s t : State, step s = .next t →
    (t.fb ≠ s.fb → s.status = .running ∧
      (decodeWord s.fetchWord = some .cls ∨ ∃ x y n, decodeWord s.fetchWord = some (.drw x y n))) ∧
    (t.redraw = true ↔
      s.redraw = true ∨ s.status = .running ∧ ∃ x y n, decodeWord s.fetchWord = some (.drw x y n))

/-- No step changes the keypad (R22: no instruction writes it) or the parameter `GLYPHS` (R31). -/
def Obligations.KeypadAndGlyphsAreNeverWrittenByAStep : Prop :=
  ∀ s t : State, step s = .next t → t.keypad = s.keypad ∧ t.glyphs = s.glyphs

/-- An instruction other than `Ex9E`, `ExA1` and `Fx0A` does the same whatever the keypad holds (R22), with the same
random byte where it is `Cxkk`: the two runs take equal draws (notes/assumptions/4.md, DESIGN CHOICE, unsafe for
claims that compare two runs; two runs of the hardware need not draw the same byte). -/
def Obligations.KeypadIsReadOnlyByThreeInstructions : Prop :=
  ∀ (i : Instr) (s t : State) (keys : Vector Bool 16), readsKeypad i = false → exec i s = .next t →
    exec i { s with keypad := keys } = .next { t with keypad := keys }

/-- No instruction reads the redraw flag (R30): a step from two states that differ only in it ends in states that
differ at most in it, with the same random byte where the step runs `Cxkk`: the two runs take equal draws
(notes/assumptions/4.md, DESIGN CHOICE, unsafe for claims that compare two runs; two runs of the hardware need not draw
the same byte). -/
def Obligations.RedrawFlagIsReadByNoInstruction : Prop :=
  ∀ (s t : State) (b : Bool), step s = .next t →
    ∃ b' : Bool, step { s with redraw := b } = .next { t with redraw := b' }

/-! ### Invariants -/

/-- Every step keeps the invariant: memory stays canonical, and a halted machine's record names the unchanged `pc`
and the word there. -/
def Obligations.EveryStepKeepsTheMachineInvariant : Prop :=
  ∀ s t : State, MachineInv s → step s = .next t → MachineInv t

/-- The state right after reset meets the invariant. -/
def Obligations.ResetMeetsTheMachineInvariant : Prop := MachineInv State.reset

/-- Every host action keeps the invariant (R120; the actions are those of its table alone: notes/assumptions/13.md,
DEDUCED). -/
def Obligations.HostActionsKeepTheMachineInvariant : Prop :=
  ∀ (s : State) (a : HostAction), MachineInv s → MachineInv (s.hostAct a)

/-- Under every schedule of cycles and host actions, from every state that meets the invariant, the run reaches a
state that meets it, or it is refused as never reset and started so; a machine that was reset is never refused and
stays reset (R66, R67; decision D17). The host's actions are those of R120's table alone: notes/assumptions/13.md
(DEDUCED, unsafe for a claim about every host schedule if the host has a move that the table does not list). -/
def Obligations.EveryHostScheduleKeepsTheMachineInvariant : Prop :=
  ∀ (es : List Event) (s : State), MachineInv s →
    (∃ t : State, runEvents es s = .next t ∧ MachineInv t ∧
      (s.status ≠ .uninitialised → t.status ≠ .uninitialised)) ∨
    (s.status = .uninitialised ∧ runEvents es s = .refused .uninitialised)

/-! ### Control transfer -/

/-- R71 `1nnn`: encoding, target, nothing else changed; `nnn = p` parks. -/
def Obligations.JumpGoesToItsAddress : Prop :=
  ∀ (nnn : Imm12) (s : State), decodeWord (0x1#4 ++ nnn) = some (.jp nnn) ∧
    ∃ t : State, exec (.jp nnn) s = .next t ∧ t.pc.toNat = nnn.toNat ∧ Frame {} s t

/-- `0nnn` is executed as a jump and nothing is pushed (R70; decision D28: the explicit effect `PC = nnn`). -/
def Obligations.MachineRoutineCallIsAJump : Prop :=
  ∀ (nnn : Imm12) (s : State),
    (nnn ≠ 0x0E0 → nnn ≠ 0x0EE → decodeWord (0x0#4 ++ nnn) = some (.sys nnn)) ∧
    ∃ t : State, exec (.sys nnn) s = .next t ∧ t.pc.toNat = nnn.toNat ∧ Frame {} s t

/-- `2nnn` with SP below 16 pushes its own address and jumps (R72; SP as a count is decision D7). -/
def Obligations.CallPushesItsOwnAddress : Prop :=
  ∀ (nnn : Imm12) (s : State) (h : s.sp.val < 16),
    ∃ t : State, exec (.call nnn) s = .next t ∧ t.stack[s.sp.val] = s.pc ∧ t.sp.val = s.sp.val + 1 ∧
      t.pc.toNat = nnn.toNat ∧ Frame { slots := [s.sp.val], sp := true } s t

/-- `00EE` with SP above 0 goes to the popped value plus 2, mod 65536, and the slot keeps its value (R69; decisions D2,
D7). -/
def Obligations.ReturnGoesPastTheCall : Prop :=
  ∀ (s : State) (h : 0 < s.sp.val),
    ∃ t : State, exec .ret s = .next t ∧ t.sp.val + 1 = s.sp.val ∧
      t.pc.toNat = ((s.stack[s.sp.val - 1]'(by omega)).toNat + 2) % 65536 ∧ Frame { sp := true } s t

/-- `2nnn` at SP = 16 and `00EE` at SP = 0 take their fault: the machine halts with the record and nothing else changes
(R69, R72, R110; decision D6; notes/assumptions/1.md). -/
def Obligations.StackFaultsHaltTheMachine : Prop :=
  ∀ (nnn : Imm12) (s : State),
    (s.sp.val = 16 → exec (.call nnn) s = .next (haltedWith s .stackOverflow)) ∧
    (s.sp.val = 0 → exec .ret s = .next (haltedWith s .stackUnderflow))

/-- R73 `Bnnn`: encoding, the unmasked sum, nothing else changed; the next fetch is at the sum mod 4096. -/
def Obligations.JumpWithOffsetAddsRegisterZero : Prop :=
  ∀ (nnn : Imm12) (s : State), decodeWord (0xB#4 ++ nnn) = some (.jpV0 nnn) ∧
    ∃ t : State, exec (.jpV0 nnn) s = .next t ∧ t.pc.toNat = nnn.toNat + (s.reg 0).toNat ∧
      t.fetchWord = wordOfBytes (s.memRead ((nnn.toNat + (s.reg 0).toNat) % 4096))
        (s.memRead ((nnn.toNat + (s.reg 0).toNat + 1) % 4096)) ∧
      Frame {} s t

/-! ### Conditional skips -/

/-- R75 `3xkk` and R76 `4xkk`: encoding, `pc` plus 4 where the condition holds and plus 2 otherwise, mod 65536, and
nothing else changed. -/
def Obligations.SkipsOnAnImmediate : Prop :=
  ∀ (x : Reg) (kk : Imm8) (s : State),
    decodeWord (0x3#4 ++ (Reg.bits x ++ kk)) = some (.seImm x kk) ∧
    decodeWord (0x4#4 ++ (Reg.bits x ++ kk)) = some (.sneImm x kk) ∧
    (∃ t : State, exec (.seImm x kk) s = .next t ∧ Frame {} s t ∧
      t.pc.toNat = (s.pc.toNat + if s.reg x = kk then 4 else 2) % 65536) ∧
    (∃ t : State, exec (.sneImm x kk) s = .next t ∧ Frame {} s t ∧
      t.pc.toNat = (s.pc.toNat + if s.reg x ≠ kk then 4 else 2) % 65536)

/-- R77 `5xy0` and R78 `9xy0`: encoding (a nonzero low nibble is illegal), `pc` plus 4 where the condition holds and
plus 2 otherwise, mod 65536, and nothing else changed. -/
def Obligations.SkipsOnTwoRegisters : Prop :=
  ∀ (x y : Reg) (s : State),
    decodeWord (0x5#4 ++ (Reg.bits x ++ (Reg.bits y ++ 0x0#4))) = some (.seReg x y) ∧
    decodeWord (0x9#4 ++ (Reg.bits x ++ (Reg.bits y ++ 0x0#4))) = some (.sneReg x y) ∧
    (∀ n : Imm4, n ≠ 0 → decodeWord (0x5#4 ++ (Reg.bits x ++ (Reg.bits y ++ n))) = none ∧
      decodeWord (0x9#4 ++ (Reg.bits x ++ (Reg.bits y ++ n))) = none) ∧
    (∃ t : State, exec (.seReg x y) s = .next t ∧ Frame {} s t ∧
      t.pc.toNat = (s.pc.toNat + if s.reg x = s.reg y then 4 else 2) % 65536) ∧
    (∃ t : State, exec (.sneReg x y) s = .next t ∧ Frame {} s t ∧
      t.pc.toNat = (s.pc.toNat + if s.reg x ≠ s.reg y then 4 else 2) % 65536)

/-- `Ex9E` and `ExA1` with a key index in range sample the key and skip or not; nothing else changes (R79, R80). -/
def Obligations.SkipsOnAKey : Prop :=
  ∀ (x : Reg) (s : State) (h : (s.reg x).toNat < 16),
    (∃ t : State, exec (.skp x) s = .next t ∧ Frame {} s t ∧
      t.pc.toNat = (s.pc.toNat + if s.keypad[(s.reg x).toNat] = true then 4 else 2) % 65536) ∧
    (∃ t : State, exec (.sknp x) s = .next t ∧ Frame {} s t ∧
      t.pc.toNat = (s.pc.toNat + if s.keypad[(s.reg x).toNat] = true then 2 else 4) % 65536)

/-- `Ex9E` and `ExA1` with a register above 15 take `KeyIndexOutOfRange`: the machine halts with the record and nothing
else changes (R79, R80, R110; decision D12; notes/assumptions/1.md). -/
def Obligations.KeyIndexAboveFifteenHaltsTheMachine : Prop :=
  ∀ (x : Reg) (s : State), 15 < (s.reg x).toNat →
    exec (.skp x) s = .next (haltedWith s .keyIndexOutOfRange) ∧
    exec (.sknp x) s = .next (haltedWith s .keyIndexOutOfRange)

/-! ### Register loads and the ALU -/

/-- R81 `6xkk` and R82 `7xkk`: encoding, the register's new value, no flag, `pc` plus 2. -/
def Obligations.ImmediateLoadAndAddWriteTheRegister : Prop :=
  ∀ (x : Reg) (kk : Imm8) (s : State),
    decodeWord (0x6#4 ++ (Reg.bits x ++ kk)) = some (.ldImm x kk) ∧
    decodeWord (0x7#4 ++ (Reg.bits x ++ kk)) = some (.addImm x kk) ∧
    (∃ t : State, exec (.ldImm x kk) s = .next t ∧ t.reg x = kk ∧ t.pc = s.pc + 2 ∧ Frame { regs := [x] } s t) ∧
    (∃ t : State, exec (.addImm x kk) s = .next t ∧
      (t.reg x).toNat = ((s.reg x).toNat + kk.toNat) % 256 ∧ t.pc = s.pc + 2 ∧ Frame { regs := [x] } s t)

/-- R83 `8xy0`, R84 `8xy1`, R85 `8xy2`, R86 `8xy3`: encoding, the register's new value bit by bit, no flag, `pc`
plus 2. -/
def Obligations.CopyAndBitwiseOperationsWriteTheRegister : Prop :=
  ∀ (x y : Reg) (s : State),
    decodeWord (0x8#4 ++ (Reg.bits x ++ (Reg.bits y ++ 0x0#4))) = some (.ldReg x y) ∧
    decodeWord (0x8#4 ++ (Reg.bits x ++ (Reg.bits y ++ 0x1#4))) = some (.orReg x y) ∧
    decodeWord (0x8#4 ++ (Reg.bits x ++ (Reg.bits y ++ 0x2#4))) = some (.andReg x y) ∧
    decodeWord (0x8#4 ++ (Reg.bits x ++ (Reg.bits y ++ 0x3#4))) = some (.xorReg x y) ∧
    (∃ t : State, exec (.ldReg x y) s = .next t ∧ t.reg x = s.reg y ∧ t.pc = s.pc + 2 ∧
      Frame { regs := [x] } s t) ∧
    (∃ t : State, exec (.orReg x y) s = .next t ∧
      (∀ k : Nat, (t.reg x).getLsbD k = ((s.reg x).getLsbD k || (s.reg y).getLsbD k)) ∧ t.pc = s.pc + 2 ∧
      Frame { regs := [x] } s t) ∧
    (∃ t : State, exec (.andReg x y) s = .next t ∧
      (∀ k : Nat, (t.reg x).getLsbD k = ((s.reg x).getLsbD k && (s.reg y).getLsbD k)) ∧ t.pc = s.pc + 2 ∧
      Frame { regs := [x] } s t) ∧
    (∃ t : State, exec (.xorReg x y) s = .next t ∧
      (∀ k : Nat, (t.reg x).getLsbD k = xor ((s.reg x).getLsbD k) ((s.reg y).getLsbD k)) ∧ t.pc = s.pc + 2 ∧
      Frame { regs := [x] } s t)

/-- `8xy4`: the sum mod 256, and the carry in VF unless VF is the destination, whose last write is the sum (R87; the
order of the two writes is decision D4). -/
def Obligations.AddRegistersGivesSumAndCarry : Prop :=
  ∀ (x y : Reg) (s : State),
    ∃ t : State, exec (.addReg x y) s = .next t ∧
      (t.reg x).toNat = ((s.reg x).toNat + (s.reg y).toNat) % 256 ∧
      (x ≠ Reg.vf → (t.reg Reg.vf).toNat = if 255 < (s.reg x).toNat + (s.reg y).toNat then 1 else 0) ∧
      t.pc = s.pc + 2 ∧ Frame { regs := [x, Reg.vf] } s t

/-- `8xy5` and `8xy7`: VF is the strict not-borrow, and the difference mod 256 reads both registers after VF is
written: `f` is that flag, and an operand in VF is the flag itself (R88, R90; the order is decision D4). -/
def Obligations.SubtractionsReadAfterTheFlagWrite : Prop :=
  ∀ (x y : Reg) (s : State),
    (∃ (t : State) (f : Nat), exec (.subReg x y) s = .next t ∧
      f = (if (s.reg y).toNat < (s.reg x).toNat then 1 else 0) ∧
      (t.reg x).toNat = ((if x = Reg.vf then f else (s.reg x).toNat) + 256 -
        (if y = Reg.vf then f else (s.reg y).toNat)) % 256 ∧
      (x ≠ Reg.vf → (t.reg Reg.vf).toNat = f) ∧ t.pc = s.pc + 2 ∧ Frame { regs := [x, Reg.vf] } s t) ∧
    (∃ (t : State) (f : Nat), exec (.subn x y) s = .next t ∧
      f = (if (s.reg x).toNat < (s.reg y).toNat then 1 else 0) ∧
      (t.reg x).toNat = ((if y = Reg.vf then f else (s.reg y).toNat) + 256 -
        (if x = Reg.vf then f else (s.reg x).toNat)) % 256 ∧
      (x ≠ Reg.vf → (t.reg Reg.vf).toNat = f) ∧ t.pc = s.pc + 2 ∧ Frame { regs := [x, Reg.vf] } s t)

/-- `8xy6` and `8xyE`: VF is the bit shifted out; a shift of VF itself shifts that bit; `y` is not used (R89, R91; the
order is decision D4). -/
def Obligations.ShiftsPutTheBitShiftedOutInTheFlag : Prop :=
  ∀ (x y : Reg) (s : State),
    (∃ t : State, exec (.shr x y) s = .next t ∧
      (t.reg x).toNat = (if x = Reg.vf then 0 else (s.reg x).toNat / 2) ∧
      (x ≠ Reg.vf → (t.reg Reg.vf).toNat = (s.reg x).toNat % 2) ∧
      t.pc = s.pc + 2 ∧ Frame { regs := [x, Reg.vf] } s t) ∧
    (∃ t : State, exec (.shl x y) s = .next t ∧
      (t.reg x).toNat = (if x = Reg.vf then 2 * ((s.reg x).toNat / 128) else (2 * (s.reg x).toNat) % 256) ∧
      (x ≠ Reg.vf → (t.reg Reg.vf).toNat = (s.reg x).toNat / 128) ∧
      t.pc = s.pc + 2 ∧ Frame { regs := [x, Reg.vf] } s t)

/-- `Cxkk`: the register is a random byte, a free value, masked by the immediate; one byte is drawn (R92;
notes/assumptions/4.md: `draws` is the model's own). A bit that is 0 in `kk` is 0 in the result. -/
def Obligations.RandomByteIsMaskedByTheImmediate : Prop :=
  ∀ (x : Reg) (kk : Imm8) (s : State),
    ∃ t : State, exec (.rnd x kk) s = .next t ∧ t.reg x = Config.randomByte s.draws &&& kk ∧
      (∀ k : Nat, kk.getLsbD k = false → (t.reg x).getLsbD k = false) ∧ t.draws = s.draws + 1 ∧
      t.pc = s.pc + 2 ∧ Frame { regs := [x], draws := true } s t

/-! ### The index register and memory -/

/-- R94 `Annn`, R95 `Fx1E`, R96 `Fx29`: encoding, the new value of I, no flag, `pc` plus 2. -/
def Obligations.IndexRegisterLoads : Prop :=
  ∀ (nnn : Imm12) (x : Reg) (s : State),
    decodeWord (0xA#4 ++ nnn) = some (.ldI nnn) ∧
    decodeWord (0xF#4 ++ (Reg.bits x ++ 0x1E#8)) = some (.addI x) ∧
    decodeWord (0xF#4 ++ (Reg.bits x ++ 0x29#8)) = some (.ldF x) ∧
    (∃ t : State, exec (.ldI nnn) s = .next t ∧ t.i.toNat = nnn.toNat ∧ t.pc = s.pc + 2 ∧
      Frame { i := true } s t) ∧
    (∃ t : State, exec (.addI x) s = .next t ∧ t.i.toNat = (s.i.toNat + (s.reg x).toNat) % 65536 ∧
      t.pc = s.pc + 2 ∧ Frame { i := true } s t) ∧
    (∃ t : State, exec (.ldF x) s = .next t ∧ t.i.toNat = (s.reg x).toNat * 5 ∧ t.pc = s.pc + 2 ∧
      Frame { i := true } s t)

/-- R97 `Fx33`: encoding, the three decimal digits at I, I+1, I+2, each address masked on its own, I kept, `pc`
plus 2; every other byte of memory is unchanged. -/
def Obligations.DecimalDigitsAreStoredAtIndex : Prop :=
  ∀ (x : Reg) (s : State), decodeWord (0xF#4 ++ (Reg.bits x ++ 0x33#8)) = some (.ldB x) ∧
    ∃ t : State, exec (.ldB x) s = .next t ∧
      (t.memRead (s.indexAddr 0)).toNat = (s.reg x).toNat / 100 ∧
      (t.memRead (s.indexAddr 1)).toNat = (s.reg x).toNat / 10 % 10 ∧
      (t.memRead (s.indexAddr 2)).toNat = (s.reg x).toNat % 10 ∧
      t.pc = s.pc + 2 ∧ Frame { mem := storedAddrs s 3 } s t

/-- R98 `Fx55`: encoding, `V[0]`..`V[x]` at I, I+1, .., each address masked on its own, then I plus x + 1 mod 65536, `pc`
plus 2; every other byte of memory is unchanged. -/
def Obligations.RegisterBlockIsStoredAtIndex : Prop :=
  ∀ (x : Reg) (s : State), decodeWord (0xF#4 ++ (Reg.bits x ++ 0x55#8)) = some (.storeRegs x) ∧
    ∃ t : State, exec (.storeRegs x) s = .next t ∧
      (∀ r : Reg, r.val ≤ x.val → t.memRead (s.indexAddr r.val) = s.reg r) ∧
      t.i.toNat = (s.i.toNat + x.val + 1) % 65536 ∧ t.pc = s.pc + 2 ∧
      Frame { i := true, mem := storedAddrs s (x.val + 1) } s t

/-- R99 `Fx65`: encoding, `V[0]`..`V[x]` from I, I+1, .., with I from before its increment, then I plus x + 1 mod 65536,
`pc` plus 2; the registers above x are unchanged. -/
def Obligations.RegisterBlockIsLoadedFromIndex : Prop :=
  ∀ (x : Reg) (s : State), decodeWord (0xF#4 ++ (Reg.bits x ++ 0x65#8)) = some (.loadRegs x) ∧
    ∃ t : State, exec (.loadRegs x) s = .next t ∧
      (∀ r : Reg, t.reg r = if r.val ≤ x.val then s.memRead (s.indexAddr r.val) else s.reg r) ∧
      t.i.toNat = (s.i.toNat + x.val + 1) % 65536 ∧ t.pc = s.pc + 2 ∧
      Frame { i := true, regs := (List.finRange 16).filter (fun r => r.val ≤ x.val) } s t

/-! ### Timers and the key wait -/

/-- R100 `Fx07`, R102 `Fx15`, R103 `Fx18`: encoding, the register or timer written, `pc` plus 2; `Fx07` reads DT from
before this cycle's decay, the decay then takes 1 from the value read or written, and a 1 written to ST sounds the
tone of this very cycle. -/
def Obligations.TimerReadsAndWrites : Prop :=
  ∀ (x : Reg) (s : State),
    decodeWord (0xF#4 ++ (Reg.bits x ++ 0x07#8)) = some (.ldVxDt x) ∧
    decodeWord (0xF#4 ++ (Reg.bits x ++ 0x15#8)) = some (.ldDtVx x) ∧
    decodeWord (0xF#4 ++ (Reg.bits x ++ 0x18#8)) = some (.ldStVx x) ∧
    (∃ t : State, exec (.ldVxDt x) s = .next t ∧ t.reg x = s.dt ∧ t.pc = s.pc + 2 ∧ Frame { regs := [x] } s t ∧
      (s.status = .running → t.endCycle.dt.toNat = s.dt.toNat - 1)) ∧
    (∃ t : State, exec (.ldDtVx x) s = .next t ∧ t.dt = s.reg x ∧ t.pc = s.pc + 2 ∧ Frame { dt := true } s t ∧
      (s.status = .running → t.endCycle.dt.toNat = (s.reg x).toNat - 1)) ∧
    (∃ t : State, exec (.ldStVx x) s = .next t ∧ t.st = s.reg x ∧ t.pc = s.pc + 2 ∧ Frame { st := true } s t ∧
      (s.status = .running → t.endCycle.st.toNat = (s.reg x).toNat - 1 ∧
        (t.toneNow = true ↔ (s.reg x).toNat = 1)))

/-- `Fx0A` takes the least pressed key, without consuming the press; with no key pressed it changes nothing and `pc`
stays, so the same instruction is fetched again (R101; decision D13: a level test, the least index). -/
def Obligations.KeyWaitTakesTheLeastPressedKey : Prop :=
  ∀ (x : Reg) (s : State),
    (∀ k : Fin 16, s.keyPressed k = true → (∀ j : Fin 16, j < k → s.keyPressed j = false) →
      ∃ t : State, exec (.ldVxK x) s = .next t ∧ (t.reg x).toNat = k.val ∧ t.pc = s.pc + 2 ∧
        Frame { regs := [x] } s t) ∧
    ((∀ k : Fin 16, s.keyPressed k = false) → exec (.ldVxK x) s = .next s)

/-! ### The display -/

/-- `00E0`: every pixel 0, `pc` plus 2, and nothing else changes, `redraw` included (R107; decision D15). -/
def Obligations.ClearTurnsEveryPixelOff : Prop :=
  ∀ s : State, ∃ t : State, exec .cls s = .next t ∧
    (∀ (r : Fin 32) (c : Fin 64), t.fb.pixel r c = false) ∧ t.pc = s.pc + 2 ∧ Frame { fb := true } s t

/-- `Dxyn`: each pixel is its old value XOR the sprite's bit there, with the start and the run around the edges; VF is 1
exactly when a pixel went from 1 to 0; `redraw` is set; the coordinates are read before VF is written (R108; decisions
D8 wrap, D9 VF = 0 without a collision, D10 8 pixels with bit 7 leftmost, D11 axes). -/
def Obligations.DrawXorsTheSpriteOntoTheScreen : Prop :=
  ∀ (x y : Reg) (n : Imm4) (s : State),
    ∃ t : State, exec (.drw x y n) s = .next t ∧
      (∀ (r : Fin 32) (c : Fin 64), t.fb.pixel r c =
        xor (s.fb.pixel r c) (spritePixel s (s.reg x).toNat (s.reg y).toNat n.toNat r c)) ∧
      ((t.reg Reg.vf).toNat = 1 ∨ (t.reg Reg.vf).toNat = 0) ∧
      ((t.reg Reg.vf).toNat = 1 ↔
        ∃ (r : Fin 32) (c : Fin 64), s.fb.pixel r c = true ∧ t.fb.pixel r c = false) ∧
      t.redraw = true ∧ t.pc = s.pc + 2 ∧ Frame { regs := [Reg.vf], fb := true, redraw := true } s t

/-! ### Headline results -/

/-- A `2nnn` and then the `00EE` at its target come back to the instruction after the call, with SP as before, from
every running state with SP below 16 (W8; R69, R72; decision D2 for `pc` plus 2 mod 65536). -/
def Obligations.CallThenReturnResumesAfterTheCall : Prop :=
  ∀ (s : State) (nnn : Imm12), s.status = .running → s.sp.val < 16 → decodeWord s.fetchWord = some (.call nnn) →
    wordOfBytes (s.memRead nnn.toNat) (s.memRead (nnn.toNat + 1)) = 0x00EE →
    ∃ t u : State, step s = .next t ∧ step t = .next u ∧ u.pc = s.pc + 2 ∧ u.sp = s.sp ∧
      u.status = .running ∧ Frame { slots := [s.sp.val], dt := true, st := true } s u

/-- `Fx55`, then any change of registers and `pc` with I set back, then `Fx65` brings the registers 0..x back (W9; R98,
R99; decision D1: addresses wrap at 4096). -/
def Obligations.StoredRegistersAreLoadedBack : Prop :=
  ∀ (x : Reg) (s t : State) (v : Vector Byte 16) (pc : Word), exec (.storeRegs x) s = .next t →
    ∃ u : State, exec (.loadRegs x) { t with v := v, pc := pc, i := s.i } = .next u ∧
      (∀ r : Reg, r.val ≤ x.val → u.reg r = s.reg r) ∧
      (∀ r : Reg, x.val < r.val → u.reg r = v[r]) ∧ u.i = t.i

/-- Drawing the same sprite twice at the same place restores every pixel; the second draw reports a collision exactly
when the first one set a pixel, and so, from a clear screen, exactly when the sprite has a 1 bit (W7; R108's pseudocode;
decisions D8, D9, D10; notes/assumptions/8.md: R108's own remark that the second draw collides whenever the sprite has
a 1 bit holds only where a pixel was clear before). VF as a coordinate is the one form where the place is another: the
first draw overwrites it. -/
def Obligations.DrawingTwiceRestoresTheScreen : Prop :=
  ∀ (x y : Reg) (n : Imm4) (s t : State), x ≠ Reg.vf → y ≠ Reg.vf → exec (.drw x y n) s = .next t →
    ∃ u : State, exec (.drw x y n) t = .next u ∧ u.fb = s.fb ∧
      ((u.reg Reg.vf).toNat = 1 ↔
        ∃ (r : Fin 32) (c : Fin 64), s.fb.pixel r c = false ∧ t.fb.pixel r c = true) ∧
      (s.fb = Framebuffer.clear →
        ((u.reg Reg.vf).toNat = 1 ↔ ∃ k : Nat, k < n.toNat ∧ s.memRead (s.indexAddr k) ≠ 0))

/-- A block stored over the next instruction is what the very next cycle fetches (R44). -/
def Obligations.StoredCodeIsFetchedByTheNextCycle : Prop :=
  ∀ (x r q : Reg) (s t : State), r.val + 1 = q.val → q.val ≤ x.val →
    maskAddr (s.indexAddr r.val) = maskAddr (s.pc + 2).toNat →
    exec (.storeRegs x) s = .next t → t.fetchWord = wordOfBytes (s.reg r) (s.reg q)

/-! ### Reset, the loader and the host -/

/-- Reset, from any state: every value of 10_state.md R32, glyphs at 0..79 and zeros above, the keypad unchanged (R124;
decision D16 for I, memory, `redraw` and `keypad`, D17 for the status). The glyph bytes are the parameter's. -/
def Obligations.ResetGivesTheResetValues : Prop :=
  ∀ s : State,
    (∀ r : Reg, s.hostReset.reg r = 0) ∧ s.hostReset.i = 0 ∧ s.hostReset.pc.toNat = 512 ∧
    (∀ k : Fin 16, s.hostReset.stack[k] = 0) ∧ s.hostReset.sp.val = 0 ∧ s.hostReset.dt = 0 ∧ s.hostReset.st = 0 ∧
    (∀ (a : Nat) (h : a < 80), s.hostReset.memRead a = s.glyphs[a]) ∧
    (∀ a : Nat, 80 ≤ a → a < 4096 → s.hostReset.memRead a = 0) ∧
    (∀ (r : Fin 32) (c : Fin 64), s.hostReset.fb.pixel r c = false) ∧
    s.hostReset.redraw = false ∧ s.hostReset.keypad = s.keypad ∧ s.hostReset.status = .running

/-- The loader: a failed read changes nothing; an image over 3584 bytes leaves the reset state; any other image is
copied byte for byte to 512 upward over the reset state, and nothing else changes (R126, R127; decisions D25, D26). -/
def Obligations.LoaderResetsThenCopiesTheImage : Prop :=
  ∀ (s : State) (image : List Byte),
    s.loadRom .unreadable = (.romUnreadable, s) ∧
    (3584 < image.length → s.loadRom (.bytes image) = (.romTooLarge, s.hostReset)) ∧
    (image.length ≤ 3584 →
      (s.loadRom (.bytes image)).1 = .ok ∧
      (∀ (k : Nat) (h : k < image.length), (s.loadRom (.bytes image)).2.memRead (512 + k) = image[k]) ∧
      (∀ a : Nat, a < 512 ∨ 512 + image.length ≤ a → a < 4096 →
        (s.loadRom (.bytes image)).2.memRead a = s.hostReset.memRead a) ∧
      (s.loadRom (.bytes image)).2 = { s.hostReset with mem := (s.loadRom (.bytes image)).2.mem })

/-- The host reads 2048 bytes of value 0 or 1: byte `r * 64 + c` is `fb[r][c]` (R21; decision D11). -/
def Obligations.HostReadsTheFramebufferRowByRow : Prop :=
  ∀ s : State, s.readFramebuffer.length = 2048 ∧
    ∀ (r : Fin 32) (c : Fin 64),
      s.readFramebuffer[r.val * 64 + c.val]? = some (if s.fb.pixel r c then 1 else 0)

/-- A cycle never leaves Halted, and of the host's actions only a reset, or a load that read its image, does. In any
state, a write of one key sets that key alone, a write of all keys sets the keypad alone, and read-and-clear returns
the old flag and clears it alone (R66, R114, R120; decision D18; the host's actions are those of R120's table alone:
notes/assumptions/13.md, DEDUCED). -/
def Obligations.OnlyResetLeavesTheHaltedState : Prop :=
  ∀ s : State,
    (∀ f : FaultRecord, s.status = .halted f →
      (∀ t : State, step s = .next t → t.status = .halted f) ∧
      ∀ a : HostAction, (s.hostAct a).status = .halted f ↔
        (a ≠ .reset ∧ ∀ image : List Byte, a ≠ .load (.bytes image))) ∧
    (∀ (k : Fin 16) (b : Bool), (s.hostAct (.key k b)).keypad[k] = b ∧
      (∀ j : Fin 16, j ≠ k → (s.hostAct (.key k b)).keypad[j] = s.keypad[j]) ∧
      s.hostAct (.key k b) = { s with keypad := (s.hostAct (.key k b)).keypad }) ∧
    (∀ keys : Vector Bool 16, s.hostAct (.keypad keys) = { s with keypad := keys }) ∧
    s.readClearRedraw = (s.redraw, { s with redraw := false }) ∧
    s.hostAct .clearRedraw = { s with redraw := false }

/-- R128: a machine reset with no ROM runs `0000` at 512, which jumps to 0, and then the glyph bytes as code: with the
parameter `GLYPHS` beginning F0 90, as R27's default does, that is `InvalidOpcode` at 0. -/
def Obligations.EmptyMemoryJumpsToTheGlyphs : Prop :=
  ∀ s : State, ∃ t : State, step s.hostReset = .next t ∧ t.pc = 0 ∧ t.status = .running ∧
    Frame {} s.hostReset t ∧ t.fetchWord = wordOfBytes s.glyphs[0] s.glyphs[1] ∧
    (s.glyphs[0] = 0xF0 → s.glyphs[1] = 0x90 →
      step t = .next { t with status := .halted ⟨.invalidOpcode, 0, 0xF090⟩ })

/-- A jump to its own address parks: the cycle changes only the timers, and `pc` and the word there stay, so every later
cycle does the same (40_engine_cycle.md R68, marked derived there). -/
def Obligations.ParkedMachineChangesOnlyItsTimers : Prop :=
  ∀ (s : State) (nnn : Imm12), s.status = .running → decodeWord s.fetchWord = some (.jp nnn) →
    nnn.toNat = s.pc.toNat →
    ∃ t : State, step s = .next t ∧ t = { s with dt := t.dt, st := t.st } ∧
      t.dt.toNat = s.dt.toNat - 1 ∧ t.st.toNat = s.st.toNat - 1 ∧ decodeWord t.fetchWord = some (.jp nnn)
end

