-- ==== Sys2Proof/Laws/Decode.lean ====
section
/-! SUPPORT. The laws of the instruction word: what each field of an encoded word is, and that a word is made of its
fields. A statement's literal word `0x6#4 ++ (Reg.bits x ++ kk)` is `encodeXK 0x6 x kk` by `rfl`. -/

namespace Sys2Proof

@[simp] theorem Reg.bits_ofBits (b : BitVec 4) : Reg.bits (Reg.ofBits b) = b := by simp [Reg.bits, Reg.ofBits]

@[simp] theorem Reg.ofBits_bits (r : Reg) : Reg.ofBits (Reg.bits r) = r := by
  apply Fin.ext; simp [Reg.bits, Reg.ofBits]

/-! ### Slices of a concatenation -/

theorem extract_append_high {n m : Nat} (a : BitVec n) (b : BitVec m) : BitVec.extractLsb' m n (a ++ b) = a := by
  ext k hk
  simp [BitVec.getElem_extractLsb', BitVec.getLsbD_append]
  rfl

theorem extract_append_low {n m : Nat} (lo k : Nat) (h : lo + k ≤ m) (a : BitVec n) (b : BitVec m) :
    BitVec.extractLsb' lo k (a ++ b) = BitVec.extractLsb' lo k b := by
  ext j hj
  simp [BitVec.getElem_extractLsb', BitVec.getLsbD_append]
  omega

/-! ### The fields of an encoded word -/

@[simp] theorem op_encodeA (op : BitVec 4) (nnn : Imm12) : Word.op (encodeA op nnn) = op :=
  extract_append_high op nnn

@[simp] theorem nnn_encodeA (op : BitVec 4) (nnn : Imm12) : Word.nnn (encodeA op nnn) = nnn :=
  (extract_append_low 0 12 (by omega) op nnn).trans (by simp)

@[simp] theorem op_encodeXK (op : BitVec 4) (x : Reg) (kk : Imm8) : Word.op (encodeXK op x kk) = op :=
  extract_append_high op (Reg.bits x ++ kk)

@[simp] theorem x_encodeXK (op : BitVec 4) (x : Reg) (kk : Imm8) : Word.x (encodeXK op x kk) = x :=
  (congrArg Reg.ofBits ((extract_append_low 8 4 (by omega) op (Reg.bits x ++ kk)).trans
    (extract_append_high (Reg.bits x) kk))).trans (Reg.ofBits_bits x)

@[simp] theorem kk_encodeXK (op : BitVec 4) (x : Reg) (kk : Imm8) : Word.kk (encodeXK op x kk) = kk :=
  (extract_append_low 0 8 (by omega) op (Reg.bits x ++ kk)).trans
    ((extract_append_low 0 8 (by omega) (Reg.bits x) kk).trans (by simp))

@[simp] theorem op_encodeXYN (op : BitVec 4) (x y : Reg) (n : Imm4) : Word.op (encodeXYN op x y n) = op :=
  extract_append_high op (Reg.bits x ++ (Reg.bits y ++ n))

@[simp] theorem x_encodeXYN (op : BitVec 4) (x y : Reg) (n : Imm4) : Word.x (encodeXYN op x y n) = x :=
  (congrArg Reg.ofBits ((extract_append_low 8 4 (by omega) op (Reg.bits x ++ (Reg.bits y ++ n))).trans
    (extract_append_high (Reg.bits x) (Reg.bits y ++ n)))).trans (Reg.ofBits_bits x)

@[simp] theorem y_encodeXYN (op : BitVec 4) (x y : Reg) (n : Imm4) : Word.y (encodeXYN op x y n) = y :=
  (congrArg Reg.ofBits ((extract_append_low 4 4 (by omega) op (Reg.bits x ++ (Reg.bits y ++ n))).trans
    ((extract_append_low 4 4 (by omega) (Reg.bits x) (Reg.bits y ++ n)).trans
      (extract_append_high (Reg.bits y) n)))).trans (Reg.ofBits_bits y)

@[simp] theorem n_encodeXYN (op : BitVec 4) (x y : Reg) (n : Imm4) : Word.n (encodeXYN op x y n) = n :=
  (extract_append_low 0 4 (by omega) op (Reg.bits x ++ (Reg.bits y ++ n))).trans
    ((extract_append_low 0 4 (by omega) (Reg.bits x) (Reg.bits y ++ n)).trans
      ((extract_append_low 0 4 (by omega) (Reg.bits y) n).trans (by simp)))

/-! ### A word from its fields -/

/-- A slice cut in two is its halves put together. -/
theorem extract_split {n : Nat} (w : BitVec n) (lo j k : Nat) :
    BitVec.extractLsb' lo (k + j) w = BitVec.extractLsb' (lo + j) k w ++ BitVec.extractLsb' lo j w := by
  ext q hq
  simp only [BitVec.getElem_extractLsb', BitVec.getElem_append]
  split
  · rfl
  · congr 1; omega

theorem encodeA_fields (w : Word) : encodeA (Word.op w) (Word.nnn w) = w :=
  ((extract_split w 0 12 4).symm).trans (by simp)

theorem encodeXK_fields (w : Word) : encodeXK (Word.op w) (Word.x w) (Word.kk w) = w := by
  have h : Reg.bits (Word.x w) ++ Word.kk w = Word.nnn w := by
    simp only [Word.x, Reg.bits_ofBits]
    exact (extract_split w 0 8 4).symm
  unfold encodeXK
  rw [h]
  exact encodeA_fields w

theorem encodeXYN_fields (w : Word) : encodeXYN (Word.op w) (Word.x w) (Word.y w) (Word.n w) = w := by
  have h : Reg.bits (Word.y w) ++ Word.n w = Word.kk w := by
    simp only [Word.y, Reg.bits_ofBits]
    exact (extract_split w 0 4 4).symm
  unfold encodeXYN
  rw [h]
  exact encodeXK_fields w

/-- A word is its two bytes, the high one first (20_memory.md R37). -/
@[simp] theorem wordOfBytes_bytes (w : Word) : wordOfBytes (highByte w) (lowByte w) = w :=
  ((extract_split w 0 8 8).symm).trans (by simp)

end Sys2Proof
end

