-- ==== Sys2Proof/Laws/Display.lean ====
section
/-! SUPPORT. What the drawing operations do to each pixel and to the collision: one pixel, one sprite row. -/

namespace Sys2Proof.Machine

@[simp] theorem pixel_clear (r : Fin 32) (c : Fin 64) : Framebuffer.clear.pixel r c = false := by
  simp [Framebuffer.pixel, Framebuffer.clear]

/-- A flip inverts its own pixel and leaves every other. -/
@[simp] theorem pixel_flip (fb : Framebuffer) (r q : Fin 32) (c d : Fin 64) :
    (fb.flip r c).pixel q d = xor (fb.pixel q d) (decide (q = r ∧ d = c)) := by
  unfold Framebuffer.pixel Framebuffer.flip
  by_cases hr : q = r
  · subst hr
    by_cases hc : d = c
    · subst hc; simp
    · have : c.val ≠ d.val := fun e => hc (Fin.ext e.symm)
      simp [hc, Vector.getElem_set_ne, this]
  · have : r.val ≠ q.val := fun e => hr (Fin.ext e.symm)
    simp [hr, Vector.getElem_set_ne, this]

/-- Framebuffers with the same pixels are the same. -/
theorem framebuffer_ext {a b : Framebuffer} (h : ∀ r c, a.pixel r c = b.pixel r c) : a = b := by
  apply Vector.ext
  intro r hr
  apply Vector.ext
  intro c hc
  exact h ⟨r, hr⟩ ⟨c, hc⟩

/-- The column offset of a screen column from the start column, counted around the screen. -/
def columnOffset (cx : Nat) (c : Fin 64) : Nat := (c.val + 64 - cx % 64) % 64

theorem columnOffset_eq (cx k : Nat) (c : Fin 64) (hk : k < 64) :
    columnOffset cx c = k ↔ c = Fin.ofNat 64 (cx + k) := by
  rw [Fin.ext_iff]
  simp only [columnOffset, Fin.ofNat]
  have := c.isLt
  omega

/-- The first `n` bits of a sprite row: every pixel of its screen row is XORed with its bit, and a collision is noted
exactly where a set pixel was flipped. -/
theorem drawBits_spec (b : Byte) (cx : Nat) (rr : Fin 32) (p : Canvas) (n : Nat) (hn : n ≤ 8) :
    (∀ r c, ((List.range n).foldl (drawBit b cx rr) p).fb.pixel r c =
      xor (p.fb.pixel r c) (decide (r = rr ∧ columnOffset cx c < n) && b.getLsbD (7 - columnOffset cx c))) ∧
    (((List.range n).foldl (drawBit b cx rr) p).hit = true ↔
      p.hit = true ∨ ∃ c, columnOffset cx c < n ∧ b.getLsbD (7 - columnOffset cx c) = true ∧
        p.fb.pixel rr c = true) := by
  induction n with
  | zero => simp
  | succ k ih =>
    obtain ⟨ihp, ihh⟩ := ih (by omega)
    rw [List.range_succ, List.foldl_append]
    simp only [List.foldl_cons, List.foldl_nil]
    generalize (List.range k).foldl (drawBit b cx rr) p = q at ihp ihh ⊢
    have col := fun c => columnOffset_eq cx k c (by omega)
    have self : columnOffset cx (Fin.ofNat 64 (cx + k)) = k := (col _).mpr rfl
    unfold drawBit
    split
    · next hb =>
      refine ⟨fun r c => ?_, ?_⟩
      · simp only [flipPixel, pixel_flip, ihp, ← col]
        by_cases e : columnOffset cx c = k
        · simp [e, hb]
        · have : columnOffset cx c < k + 1 ↔ columnOffset cx c < k := by omega
          simp [e, this]
      · simp only [flipPixel, Bool.or_eq_true, ihh, ihp, self]
        constructor
        · rintro ((h | ⟨c, h1, h2, h3⟩) | h)
          · exact .inl h
          · exact .inr ⟨c, by omega, h2, h3⟩
          · exact .inr ⟨Fin.ofNat 64 (cx + k), by omega, by rw [self]; exact hb, by simpa using h⟩
        · rintro (h | ⟨c, h1, h2, h3⟩)
          · exact .inl (.inl h)
          · by_cases e : columnOffset cx c = k
            · exact .inr (by rw [← (col c).mp e]; simpa using h3)
            · exact .inl (.inr ⟨c, by omega, h2, h3⟩)
    · next hb =>
      have drop : ∀ c, (columnOffset cx c < k + 1 ∧ b.getLsbD (7 - columnOffset cx c) = true) ↔
          (columnOffset cx c < k ∧ b.getLsbD (7 - columnOffset cx c) = true) := by
        intro c
        constructor
        · rintro ⟨h1, h2⟩
          refine ⟨?_, h2⟩
          rcases Nat.lt_succ_iff_lt_or_eq.mp h1 with h | h
          · exact h
          · rw [h] at h2; exact absurd h2 hb
        · rintro ⟨h1, h2⟩; exact ⟨by omega, h2⟩
      refine ⟨fun r c => ?_, ?_⟩
      · rw [ihp]
        congr 1
        have := drop c
        rw [Bool.eq_iff_iff]
        simp only [Bool.and_eq_true, decide_eq_true_eq]
        tauto
      · rw [ihh]
        refine or_congr Iff.rfl (exists_congr fun c => ?_)
        have := drop c
        tauto

/-- One sprite row: 8 pixels of one screen row, around the screen. -/
theorem drawRow_pixel (b : Byte) (cx : Nat) (rr : Fin 32) (p : Canvas) (r : Fin 32) (c : Fin 64) :
    (drawRow b cx rr p).fb.pixel r c =
      xor (p.fb.pixel r c) (decide (r = rr ∧ columnOffset cx c < 8) && b.getLsbD (7 - columnOffset cx c)) :=
  (drawBits_spec b cx rr p 8 (by omega)).1 r c

/-- One sprite row notes a collision exactly where it flips a set pixel. -/
theorem drawRow_hit (b : Byte) (cx : Nat) (rr : Fin 32) (p : Canvas) :
    (drawRow b cx rr p).hit = true ↔
      p.hit = true ∨ ∃ c, columnOffset cx c < 8 ∧ b.getLsbD (7 - columnOffset cx c) = true ∧
        p.fb.pixel rr c = true :=
  (drawBits_spec b cx rr p 8 (by omega)).2

end Sys2Proof.Machine
end

