-- ==== Sys2Proof/Laws/State.lean ====
section
/-! SUPPORT. One lemma per field per named update of State, each true by rfl, so that no proof unfolds a record
update; then what the views `reg`, `memRead`, `fetchWord` give after each update. -/

namespace Sys2Proof.Machine.State

variable (s : State)

/-! ### setReg -/

@[simp] theorem setReg_v (r : Reg) (b : Byte) : (s.setReg r b).v = s.v.set r.val b r.isLt := rfl
@[simp] theorem setReg_i (r : Reg) (b : Byte) : (s.setReg r b).i = s.i := rfl
@[simp] theorem setReg_pc (r : Reg) (b : Byte) : (s.setReg r b).pc = s.pc := rfl
@[simp] theorem setReg_stack (r : Reg) (b : Byte) : (s.setReg r b).stack = s.stack := rfl
@[simp] theorem setReg_sp (r : Reg) (b : Byte) : (s.setReg r b).sp = s.sp := rfl
@[simp] theorem setReg_dt (r : Reg) (b : Byte) : (s.setReg r b).dt = s.dt := rfl
@[simp] theorem setReg_st (r : Reg) (b : Byte) : (s.setReg r b).st = s.st := rfl
@[simp] theorem setReg_mem (r : Reg) (b : Byte) : (s.setReg r b).mem = s.mem := rfl
@[simp] theorem setReg_fb (r : Reg) (b : Byte) : (s.setReg r b).fb = s.fb := rfl
@[simp] theorem setReg_keypad (r : Reg) (b : Byte) : (s.setReg r b).keypad = s.keypad := rfl
@[simp] theorem setReg_redraw (r : Reg) (b : Byte) : (s.setReg r b).redraw = s.redraw := rfl
@[simp] theorem setReg_status (r : Reg) (b : Byte) : (s.setReg r b).status = s.status := rfl
@[simp] theorem setReg_glyphs (r : Reg) (b : Byte) : (s.setReg r b).glyphs = s.glyphs := rfl
@[simp] theorem setReg_draws (r : Reg) (b : Byte) : (s.setReg r b).draws = s.draws := rfl

/-! ### setI -/

@[simp] theorem setI_v (a : Word) : (s.setI a).v = s.v := rfl
@[simp] theorem setI_i (a : Word) : (s.setI a).i = a := rfl
@[simp] theorem setI_pc (a : Word) : (s.setI a).pc = s.pc := rfl
@[simp] theorem setI_stack (a : Word) : (s.setI a).stack = s.stack := rfl
@[simp] theorem setI_sp (a : Word) : (s.setI a).sp = s.sp := rfl
@[simp] theorem setI_dt (a : Word) : (s.setI a).dt = s.dt := rfl
@[simp] theorem setI_st (a : Word) : (s.setI a).st = s.st := rfl
@[simp] theorem setI_mem (a : Word) : (s.setI a).mem = s.mem := rfl
@[simp] theorem setI_fb (a : Word) : (s.setI a).fb = s.fb := rfl
@[simp] theorem setI_keypad (a : Word) : (s.setI a).keypad = s.keypad := rfl
@[simp] theorem setI_redraw (a : Word) : (s.setI a).redraw = s.redraw := rfl
@[simp] theorem setI_status (a : Word) : (s.setI a).status = s.status := rfl
@[simp] theorem setI_glyphs (a : Word) : (s.setI a).glyphs = s.glyphs := rfl
@[simp] theorem setI_draws (a : Word) : (s.setI a).draws = s.draws := rfl

/-! ### setPc -/

@[simp] theorem setPc_v (t : Word) : (s.setPc t).v = s.v := rfl
@[simp] theorem setPc_i (t : Word) : (s.setPc t).i = s.i := rfl
@[simp] theorem setPc_pc (t : Word) : (s.setPc t).pc = t := rfl
@[simp] theorem setPc_stack (t : Word) : (s.setPc t).stack = s.stack := rfl
@[simp] theorem setPc_sp (t : Word) : (s.setPc t).sp = s.sp := rfl
@[simp] theorem setPc_dt (t : Word) : (s.setPc t).dt = s.dt := rfl
@[simp] theorem setPc_st (t : Word) : (s.setPc t).st = s.st := rfl
@[simp] theorem setPc_mem (t : Word) : (s.setPc t).mem = s.mem := rfl
@[simp] theorem setPc_fb (t : Word) : (s.setPc t).fb = s.fb := rfl
@[simp] theorem setPc_keypad (t : Word) : (s.setPc t).keypad = s.keypad := rfl
@[simp] theorem setPc_redraw (t : Word) : (s.setPc t).redraw = s.redraw := rfl
@[simp] theorem setPc_status (t : Word) : (s.setPc t).status = s.status := rfl
@[simp] theorem setPc_glyphs (t : Word) : (s.setPc t).glyphs = s.glyphs := rfl
@[simp] theorem setPc_draws (t : Word) : (s.setPc t).draws = s.draws := rfl

/-! ### advance -/

@[simp] theorem advance_v : (s.advance).v = s.v := rfl
@[simp] theorem advance_i : (s.advance).i = s.i := rfl
@[simp] theorem advance_pc : (s.advance).pc = s.pc + 2 := rfl
@[simp] theorem advance_stack : (s.advance).stack = s.stack := rfl
@[simp] theorem advance_sp : (s.advance).sp = s.sp := rfl
@[simp] theorem advance_dt : (s.advance).dt = s.dt := rfl
@[simp] theorem advance_st : (s.advance).st = s.st := rfl
@[simp] theorem advance_mem : (s.advance).mem = s.mem := rfl
@[simp] theorem advance_fb : (s.advance).fb = s.fb := rfl
@[simp] theorem advance_keypad : (s.advance).keypad = s.keypad := rfl
@[simp] theorem advance_redraw : (s.advance).redraw = s.redraw := rfl
@[simp] theorem advance_status : (s.advance).status = s.status := rfl
@[simp] theorem advance_glyphs : (s.advance).glyphs = s.glyphs := rfl
@[simp] theorem advance_draws : (s.advance).draws = s.draws := rfl

/-! ### setDT -/

@[simp] theorem setDT_v (b : Byte) : (s.setDT b).v = s.v := rfl
@[simp] theorem setDT_i (b : Byte) : (s.setDT b).i = s.i := rfl
@[simp] theorem setDT_pc (b : Byte) : (s.setDT b).pc = s.pc := rfl
@[simp] theorem setDT_stack (b : Byte) : (s.setDT b).stack = s.stack := rfl
@[simp] theorem setDT_sp (b : Byte) : (s.setDT b).sp = s.sp := rfl
@[simp] theorem setDT_dt (b : Byte) : (s.setDT b).dt = b := rfl
@[simp] theorem setDT_st (b : Byte) : (s.setDT b).st = s.st := rfl
@[simp] theorem setDT_mem (b : Byte) : (s.setDT b).mem = s.mem := rfl
@[simp] theorem setDT_fb (b : Byte) : (s.setDT b).fb = s.fb := rfl
@[simp] theorem setDT_keypad (b : Byte) : (s.setDT b).keypad = s.keypad := rfl
@[simp] theorem setDT_redraw (b : Byte) : (s.setDT b).redraw = s.redraw := rfl
@[simp] theorem setDT_status (b : Byte) : (s.setDT b).status = s.status := rfl
@[simp] theorem setDT_glyphs (b : Byte) : (s.setDT b).glyphs = s.glyphs := rfl
@[simp] theorem setDT_draws (b : Byte) : (s.setDT b).draws = s.draws := rfl

/-! ### setST -/

@[simp] theorem setST_v (b : Byte) : (s.setST b).v = s.v := rfl
@[simp] theorem setST_i (b : Byte) : (s.setST b).i = s.i := rfl
@[simp] theorem setST_pc (b : Byte) : (s.setST b).pc = s.pc := rfl
@[simp] theorem setST_stack (b : Byte) : (s.setST b).stack = s.stack := rfl
@[simp] theorem setST_sp (b : Byte) : (s.setST b).sp = s.sp := rfl
@[simp] theorem setST_dt (b : Byte) : (s.setST b).dt = s.dt := rfl
@[simp] theorem setST_st (b : Byte) : (s.setST b).st = b := rfl
@[simp] theorem setST_mem (b : Byte) : (s.setST b).mem = s.mem := rfl
@[simp] theorem setST_fb (b : Byte) : (s.setST b).fb = s.fb := rfl
@[simp] theorem setST_keypad (b : Byte) : (s.setST b).keypad = s.keypad := rfl
@[simp] theorem setST_redraw (b : Byte) : (s.setST b).redraw = s.redraw := rfl
@[simp] theorem setST_status (b : Byte) : (s.setST b).status = s.status := rfl
@[simp] theorem setST_glyphs (b : Byte) : (s.setST b).glyphs = s.glyphs := rfl
@[simp] theorem setST_draws (b : Byte) : (s.setST b).draws = s.draws := rfl

/-! ### memWrite -/

@[simp] theorem memWrite_v (a : Nat) (b : Byte) : (s.memWrite a b).v = s.v := rfl
@[simp] theorem memWrite_i (a : Nat) (b : Byte) : (s.memWrite a b).i = s.i := rfl
@[simp] theorem memWrite_pc (a : Nat) (b : Byte) : (s.memWrite a b).pc = s.pc := rfl
@[simp] theorem memWrite_stack (a : Nat) (b : Byte) : (s.memWrite a b).stack = s.stack := rfl
@[simp] theorem memWrite_sp (a : Nat) (b : Byte) : (s.memWrite a b).sp = s.sp := rfl
@[simp] theorem memWrite_dt (a : Nat) (b : Byte) : (s.memWrite a b).dt = s.dt := rfl
@[simp] theorem memWrite_st (a : Nat) (b : Byte) : (s.memWrite a b).st = s.st := rfl
@[simp] theorem memWrite_mem (a : Nat) (b : Byte) : (s.memWrite a b).mem = Memory.put s.glyphs s.mem (maskAddr a) b := rfl
@[simp] theorem memWrite_fb (a : Nat) (b : Byte) : (s.memWrite a b).fb = s.fb := rfl
@[simp] theorem memWrite_keypad (a : Nat) (b : Byte) : (s.memWrite a b).keypad = s.keypad := rfl
@[simp] theorem memWrite_redraw (a : Nat) (b : Byte) : (s.memWrite a b).redraw = s.redraw := rfl
@[simp] theorem memWrite_status (a : Nat) (b : Byte) : (s.memWrite a b).status = s.status := rfl
@[simp] theorem memWrite_glyphs (a : Nat) (b : Byte) : (s.memWrite a b).glyphs = s.glyphs := rfl
@[simp] theorem memWrite_draws (a : Nat) (b : Byte) : (s.memWrite a b).draws = s.draws := rfl

/-! ### raiseFault -/

@[simp] theorem raiseFault_v (k : FaultKind) : (s.raiseFault k).v = s.v := rfl
@[simp] theorem raiseFault_i (k : FaultKind) : (s.raiseFault k).i = s.i := rfl
@[simp] theorem raiseFault_pc (k : FaultKind) : (s.raiseFault k).pc = s.pc := rfl
@[simp] theorem raiseFault_stack (k : FaultKind) : (s.raiseFault k).stack = s.stack := rfl
@[simp] theorem raiseFault_sp (k : FaultKind) : (s.raiseFault k).sp = s.sp := rfl
@[simp] theorem raiseFault_dt (k : FaultKind) : (s.raiseFault k).dt = s.dt := rfl
@[simp] theorem raiseFault_st (k : FaultKind) : (s.raiseFault k).st = s.st := rfl
@[simp] theorem raiseFault_mem (k : FaultKind) : (s.raiseFault k).mem = s.mem := rfl
@[simp] theorem raiseFault_fb (k : FaultKind) : (s.raiseFault k).fb = s.fb := rfl
@[simp] theorem raiseFault_keypad (k : FaultKind) : (s.raiseFault k).keypad = s.keypad := rfl
@[simp] theorem raiseFault_redraw (k : FaultKind) : (s.raiseFault k).redraw = s.redraw := rfl
@[simp] theorem raiseFault_status (k : FaultKind) : (s.raiseFault k).status = .halted (s.faultRecord k) := rfl
@[simp] theorem raiseFault_glyphs (k : FaultKind) : (s.raiseFault k).glyphs = s.glyphs := rfl
@[simp] theorem raiseFault_draws (k : FaultKind) : (s.raiseFault k).draws = s.draws := rfl

/-! ### decay -/

@[simp] theorem decay_v : (s.decay).v = s.v := rfl
@[simp] theorem decay_i : (s.decay).i = s.i := rfl
@[simp] theorem decay_pc : (s.decay).pc = s.pc := rfl
@[simp] theorem decay_stack : (s.decay).stack = s.stack := rfl
@[simp] theorem decay_sp : (s.decay).sp = s.sp := rfl
@[simp] theorem decay_dt : (s.decay).dt = decayTimer s.dt := rfl
@[simp] theorem decay_st : (s.decay).st = decayTimer s.st := rfl
@[simp] theorem decay_mem : (s.decay).mem = s.mem := rfl
@[simp] theorem decay_fb : (s.decay).fb = s.fb := rfl
@[simp] theorem decay_keypad : (s.decay).keypad = s.keypad := rfl
@[simp] theorem decay_redraw : (s.decay).redraw = s.redraw := rfl
@[simp] theorem decay_status : (s.decay).status = s.status := rfl
@[simp] theorem decay_glyphs : (s.decay).glyphs = s.glyphs := rfl
@[simp] theorem decay_draws : (s.decay).draws = s.draws := rfl

/-! ### bumpI -/

@[simp] theorem bumpI_v (x : Reg) : (s.bumpI x).v = s.v := rfl
@[simp] theorem bumpI_i (x : Reg) : (s.bumpI x).i = s.i + BitVec.ofNat 16 (x.val + 1) := rfl
@[simp] theorem bumpI_pc (x : Reg) : (s.bumpI x).pc = s.pc := rfl
@[simp] theorem bumpI_stack (x : Reg) : (s.bumpI x).stack = s.stack := rfl
@[simp] theorem bumpI_sp (x : Reg) : (s.bumpI x).sp = s.sp := rfl
@[simp] theorem bumpI_dt (x : Reg) : (s.bumpI x).dt = s.dt := rfl
@[simp] theorem bumpI_st (x : Reg) : (s.bumpI x).st = s.st := rfl
@[simp] theorem bumpI_mem (x : Reg) : (s.bumpI x).mem = s.mem := rfl
@[simp] theorem bumpI_fb (x : Reg) : (s.bumpI x).fb = s.fb := rfl
@[simp] theorem bumpI_keypad (x : Reg) : (s.bumpI x).keypad = s.keypad := rfl
@[simp] theorem bumpI_redraw (x : Reg) : (s.bumpI x).redraw = s.redraw := rfl
@[simp] theorem bumpI_status (x : Reg) : (s.bumpI x).status = s.status := rfl
@[simp] theorem bumpI_glyphs (x : Reg) : (s.bumpI x).glyphs = s.glyphs := rfl
@[simp] theorem bumpI_draws (x : Reg) : (s.bumpI x).draws = s.draws := rfl

/-! ### skipIf -/

@[simp] theorem skipIf_v (c : Bool) : (s.skipIf c).v = s.v := rfl
@[simp] theorem skipIf_i (c : Bool) : (s.skipIf c).i = s.i := rfl
@[simp] theorem skipIf_pc (c : Bool) : (s.skipIf c).pc = s.pc + if c then 4 else 2 := rfl
@[simp] theorem skipIf_stack (c : Bool) : (s.skipIf c).stack = s.stack := rfl
@[simp] theorem skipIf_sp (c : Bool) : (s.skipIf c).sp = s.sp := rfl
@[simp] theorem skipIf_dt (c : Bool) : (s.skipIf c).dt = s.dt := rfl
@[simp] theorem skipIf_st (c : Bool) : (s.skipIf c).st = s.st := rfl
@[simp] theorem skipIf_mem (c : Bool) : (s.skipIf c).mem = s.mem := rfl
@[simp] theorem skipIf_fb (c : Bool) : (s.skipIf c).fb = s.fb := rfl
@[simp] theorem skipIf_keypad (c : Bool) : (s.skipIf c).keypad = s.keypad := rfl
@[simp] theorem skipIf_redraw (c : Bool) : (s.skipIf c).redraw = s.redraw := rfl
@[simp] theorem skipIf_status (c : Bool) : (s.skipIf c).status = s.status := rfl
@[simp] theorem skipIf_glyphs (c : Bool) : (s.skipIf c).glyphs = s.glyphs := rfl
@[simp] theorem skipIf_draws (c : Bool) : (s.skipIf c).draws = s.draws := rfl

/-! ### Views after an update -/

@[simp] theorem setReg_memRead (r : Reg) (b : Byte) (q : Nat) : (s.setReg r b).memRead q = s.memRead q := rfl
@[simp] theorem setI_reg (a : Word) (q : Reg) : (s.setI a).reg q = s.reg q := rfl
@[simp] theorem setI_memRead (a : Word) (q : Nat) : (s.setI a).memRead q = s.memRead q := rfl
@[simp] theorem setPc_reg (t : Word) (q : Reg) : (s.setPc t).reg q = s.reg q := rfl
@[simp] theorem setPc_memRead (t : Word) (q : Nat) : (s.setPc t).memRead q = s.memRead q := rfl
@[simp] theorem advance_reg (q : Reg) : (s.advance).reg q = s.reg q := rfl
@[simp] theorem advance_memRead (q : Nat) : (s.advance).memRead q = s.memRead q := rfl
@[simp] theorem setDT_reg (b : Byte) (q : Reg) : (s.setDT b).reg q = s.reg q := rfl
@[simp] theorem setDT_memRead (b : Byte) (q : Nat) : (s.setDT b).memRead q = s.memRead q := rfl
@[simp] theorem setST_reg (b : Byte) (q : Reg) : (s.setST b).reg q = s.reg q := rfl
@[simp] theorem setST_memRead (b : Byte) (q : Nat) : (s.setST b).memRead q = s.memRead q := rfl
@[simp] theorem memWrite_reg (a : Nat) (b : Byte) (q : Reg) : (s.memWrite a b).reg q = s.reg q := rfl
@[simp] theorem raiseFault_reg (k : FaultKind) (q : Reg) : (s.raiseFault k).reg q = s.reg q := rfl
@[simp] theorem raiseFault_memRead (k : FaultKind) (q : Nat) : (s.raiseFault k).memRead q = s.memRead q := rfl
@[simp] theorem decay_reg (q : Reg) : (s.decay).reg q = s.reg q := rfl
@[simp] theorem decay_memRead (q : Nat) : (s.decay).memRead q = s.memRead q := rfl
@[simp] theorem bumpI_reg (x : Reg) (q : Reg) : (s.bumpI x).reg q = s.reg q := rfl
@[simp] theorem bumpI_memRead (x : Reg) (q : Nat) : (s.bumpI x).memRead q = s.memRead q := rfl
@[simp] theorem skipIf_reg (c : Bool) (q : Reg) : (s.skipIf c).reg q = s.reg q := rfl
@[simp] theorem skipIf_memRead (c : Bool) (q : Nat) : (s.skipIf c).memRead q = s.memRead q := rfl

/-- A register write is read back at its own number and nowhere else. -/
@[simp] theorem setReg_reg (r : Reg) (b : Byte) (q : Reg) : (s.setReg r b).reg q = if q = r then b else s.reg q := by
  unfold State.reg
  by_cases h : q = r
  · subst h; simp
  · have : r.val ≠ q.val := fun e => h (Fin.ext e.symm)
    simp [h, Vector.getElem_set_ne, this]

@[simp] theorem setVF_eq (b : Byte) : s.setVF b = s.setReg Reg.vf b := rfl

end Sys2Proof.Machine.State
end

