-- ==== Sys2Proof/Laws/Memory.lean ====
section
/-! SUPPORT. The laws of memory: what a write does to every later read, and that every operation keeps the canonical
form. They hold of every list of cells, canonical or not, where no premise says otherwise. -/

namespace Sys2Proof.Machine

/-! ### Lookup after an update -/

theorem Memory.lookup_insert (m : List Host.Cell) (a q : Nat) (b : Byte) :
    Memory.lookup (Memory.insert m a b) q = if a = q then some b else Memory.lookup m q := by
  induction m with
  | nil => simp [Memory.insert, Memory.lookup]
  | cons c m ih =>
    obtain ⟨k, c⟩ := c
    simp only [Memory.insert]
    split_ifs <;> simp_all [Memory.lookup]

theorem Memory.lookup_erase (m : List Host.Cell) (a q : Nat) :
    Memory.lookup (Memory.erase m a) q = if a = q then none else Memory.lookup m q := by
  induction m with
  | nil => simp [Memory.erase, Memory.lookup]
  | cons c m ih =>
    obtain ⟨k, c⟩ := c
    simp only [Memory.erase]
    split_ifs <;> simp_all [Memory.lookup]

/-- The one law of reading after writing: the byte written at its own address, the old byte elsewhere. -/
theorem Memory.get_put (g : Vector Byte 80) (m : List Host.Cell) (a q : Nat) (b : Byte) :
    Memory.get g (Memory.put g m a b) q = if a = q then b else Memory.get g m q := by
  unfold Memory.get Memory.put
  split
  · rw [Memory.lookup_erase]; split <;> simp_all
  · rw [Memory.lookup_insert]; split <;> simp_all

/-! ### The canonical form -/

theorem Memory.rising_mono {lo hi : Nat} (m : List Host.Cell) (h : lo ≤ hi) (r : Memory.rising hi m = true) :
    Memory.rising lo m = true := by
  cases m with
  | nil => rfl
  | cons c m =>
    obtain ⟨k, c⟩ := c
    simp only [Memory.rising, Bool.and_eq_true, decide_eq_true_eq] at r ⊢
    exact ⟨by omega, r.2⟩

theorem Memory.rising_insert (m : List Host.Cell) (lo a : Nat) (b : Byte) (h : lo ≤ a)
    (r : Memory.rising lo m = true) : Memory.rising lo (Memory.insert m a b) = true := by
  induction m generalizing lo with
  | nil => simp [Memory.insert, Memory.rising, h]
  | cons c m ih =>
    obtain ⟨k, c⟩ := c
    simp only [Memory.rising, Bool.and_eq_true, decide_eq_true_eq] at r
    simp only [Memory.insert]
    split_ifs with h1 h2
    · simp only [Memory.rising, Bool.and_eq_true, decide_eq_true_eq]
      exact ⟨h, by omega, r.2⟩
    · simp only [Memory.rising, Bool.and_eq_true, decide_eq_true_eq]
      exact ⟨h, h2 ▸ r.2⟩
    · simp only [Memory.rising, Bool.and_eq_true, decide_eq_true_eq]
      exact ⟨r.1, ih (k + 1) (by omega) r.2⟩

theorem Memory.rising_erase (m : List Host.Cell) (lo a : Nat) (r : Memory.rising lo m = true) :
    Memory.rising lo (Memory.erase m a) = true := by
  induction m generalizing lo with
  | nil => rfl
  | cons c m ih =>
    obtain ⟨k, c⟩ := c
    simp only [Memory.rising, Bool.and_eq_true, decide_eq_true_eq] at r
    simp only [Memory.erase]
    split_ifs
    · exact ih lo (Memory.rising_mono m (by omega) r.2)
    · simp only [Memory.rising, Bool.and_eq_true, decide_eq_true_eq]
      exact ⟨r.1, ih (k + 1) r.2⟩

theorem Memory.mem_insert {m : List Host.Cell} {a : Nat} {b : Byte} {c : Host.Cell} (h : c ∈ Memory.insert m a b) :
    c = (a, b) ∨ c ∈ m := by
  induction m with
  | nil => simpa [Memory.insert] using h
  | cons d m ih =>
    obtain ⟨k, d⟩ := d
    simp only [Memory.insert] at h
    split_ifs at h <;> simp only [List.mem_cons] at h ⊢
    · tauto
    · tauto
    · rcases h with h | h
      · tauto
      · rcases ih h with h | h <;> tauto

theorem Memory.mem_erase {m : List Host.Cell} {a : Nat} {c : Host.Cell} (h : c ∈ Memory.erase m a) : c ∈ m := by
  induction m with
  | nil => simp [Memory.erase] at h
  | cons d m ih =>
    obtain ⟨k, d⟩ := d
    simp only [Memory.erase] at h
    split_ifs at h
    · exact List.mem_cons_of_mem _ (ih h)
    · rcases List.mem_cons.mp h with h | h
      · exact h ▸ List.mem_cons_self
      · exact List.mem_cons_of_mem _ (ih h)

theorem Memory.wf_iff (g : Vector Byte 80) (m : List Host.Cell) :
    Memory.wf g m = true ↔
      Memory.rising 0 m = true ∧ ∀ c ∈ m, c.1 < Config.memSize ∧ c.2 ≠ Memory.unlisted g c.1 := by
  simp [Memory.wf]

/-- A write inside 0..4095 keeps the canonical form. -/
theorem Memory.wf_put (g : Vector Byte 80) (m : List Host.Cell) (a : Nat) (b : Byte) (ha : a < Config.memSize)
    (h : Memory.wf g m = true) : Memory.wf g (Memory.put g m a b) = true := by
  rw [Memory.wf_iff] at h ⊢
  unfold Memory.put
  split_ifs with e
  · exact ⟨Memory.rising_erase m 0 a h.1, fun c hc => h.2 c (Memory.mem_erase hc)⟩
  · refine ⟨Memory.rising_insert m 0 a b (Nat.zero_le a) h.1, fun c hc => ?_⟩
    rcases Memory.mem_insert hc with rfl | hc
    · exact ⟨ha, e⟩
    · exact h.2 c hc

/-- The empty list, the memory right after a reset, is canonical. -/
@[simp] theorem Memory.wf_nil (g : Vector Byte 80) : Memory.wf g [] = true := rfl

/-! ### On the state -/

theorem maskAddr_lt (a : Nat) : maskAddr a < Config.memSize := Nat.mod_lt a (by decide)

@[simp] theorem maskAddr_maskAddr (a : Nat) : maskAddr (maskAddr a) = maskAddr a := Nat.mod_mod a _

/-- An access sees only the masked address (20_memory.md R35). -/
@[simp] theorem State.memRead_maskAddr (s : State) (a : Nat) : s.memRead (maskAddr a) = s.memRead a := by
  simp [State.memRead]

/-- A read after a write, addresses masked. -/
@[simp] theorem State.memWrite_memRead (s : State) (a : Nat) (b : Byte) (q : Nat) :
    (s.memWrite a b).memRead q = if maskAddr a = maskAddr q then b else s.memRead q :=
  Memory.get_put s.glyphs s.mem (maskAddr a) (maskAddr q) b

/-- A write keeps the canonical form. -/
theorem State.memWrite_memWf (s : State) (a : Nat) (b : Byte) (h : s.memWf = true) : (s.memWrite a b).memWf = true :=
  Memory.wf_put s.glyphs s.mem (maskAddr a) b (maskAddr_lt a) h

end Sys2Proof.Machine
end

