-- ==== Sys2Proof/Laws/Ops.lean ====
section
/-! SUPPORT. One lemma per shared operation that says everything it can do, for proofs to cite instead of unfolding
it: the stack, the keypad, the key index, the block moves, the fault, the end of a cycle. -/

namespace Sys2Proof.Machine.State

/-! ### The return stack -/

/-- A push answers the state with the slot written and SP raised exactly where SP is below 16. -/
theorem push_eq_some {s t : State} {a : Word} :
    s.push a = some t ↔
      ∃ h : s.sp.val < 16, t = { s with stack := s.stack.set s.sp.val a h, sp := ⟨s.sp.val + 1, by omega⟩ } := by
  unfold push
  split <;> simp_all [eq_comm]

/-- A push fails exactly where 16 addresses are on the stack. -/
theorem push_eq_none {s : State} {a : Word} : s.push a = none ↔ s.sp.val = 16 := by
  unfold push
  split <;> simp <;> omega

/-- A pop answers the top slot and the state with SP lowered exactly where the stack is not empty. -/
theorem pop_eq_some {s t : State} {a : Word} :
    s.pop = some (a, t) ↔
      ∃ h : 0 < s.sp.val, a = s.stack[s.sp.val - 1]'(by omega) ∧ t = { s with sp := ⟨s.sp.val - 1, by omega⟩ } := by
  unfold pop
  split <;> simp_all [eq_comm]

/-- A pop fails exactly where the stack is empty. -/
theorem pop_eq_none {s : State} : s.pop = none ↔ s.sp.val = 0 := by
  unfold pop
  split <;> simp <;> omega

/-! ### The keypad -/

/-- `leastKey` answers k exactly where k is pressed and no lower key is. -/
theorem leastKey_eq_some {s : State} {k : Nat} :
    s.leastKey = some k ↔
      ∃ h : k < 16, s.keyPressed ⟨k, h⟩ = true ∧ ∀ j : Fin 16, j.val < k → s.keyPressed j = false := by
  have small : ∀ j, (h : j < 16) → Fin.ofNat 16 j = ⟨j, h⟩ := fun j h => Fin.ext (Nat.mod_eq_of_lt h)
  unfold leastKey
  rw [List.find?_range_eq_some]
  constructor
  · rintro ⟨hp, hk, hl⟩
    have h : k < 16 := by simpa using hk
    refine ⟨h, by rwa [small k h] at hp, fun j hj => ?_⟩
    have := hl j.val hj
    rw [small j.val j.isLt] at this
    simpa using this
  · rintro ⟨h, hp, hl⟩
    refine ⟨by rwa [small k h], by simpa using h, fun j hj => ?_⟩
    have hj16 : j < 16 := by omega
    rw [small j hj16, hl ⟨j, hj16⟩ hj]
    rfl

/-- `leastKey` answers nothing exactly where no key is pressed. -/
theorem leastKey_eq_none {s : State} : s.leastKey = none ↔ ∀ j : Fin 16, s.keyPressed j = false := by
  unfold leastKey
  rw [List.find?_eq_none]
  constructor
  · intro h j
    have := h j.val (by simp)
    have e : Fin.ofNat 16 j.val = j := Fin.ext (Nat.mod_eq_of_lt j.isLt)
    rw [e] at this
    simpa using this
  · intro h k _
    simp [h]

/-- `keyIndex` answers the register's value exactly where it is at most 15. -/
theorem keyIndex_eq_some {s : State} {x : Reg} {k : Fin 16} : s.keyIndex x = some k ↔ (s.reg x).toNat = k.val := by
  unfold keyIndex
  split
  · simp [Fin.ext_iff]
  · simp; omega

/-- `keyIndex` answers nothing exactly where the register is above 15. -/
theorem keyIndex_eq_none {s : State} {x : Reg} : s.keyIndex x = none ↔ 15 < (s.reg x).toNat := by
  unfold keyIndex
  split <;> simp <;> omega

/-! ### The block moves -/

/-- Storing a block writes memory and nothing else. -/
theorem storeBlock_eq (s : State) (n : Nat) : s.storeBlock n = { s with mem := (s.storeBlock n).mem } := by
  induction n with
  | zero => rfl
  | succ k ih => simp only [storeBlock]; rw [ih]; rfl

/-- Loading a block writes registers and nothing else. -/
theorem loadBlock_eq (s : State) (n : Nat) : s.loadBlock n = { s with v := (s.loadBlock n).v } := by
  induction n with
  | zero => rfl
  | succ k ih => simp only [loadBlock]; rw [ih]; rfl

/-- What memory holds after a block of up to 16 registers is stored: the last write of the block to that address. -/
theorem storeBlock_memRead (s : State) (n : Nat) (a : Nat) (hn : n ≤ 16) :
    (s.storeBlock n).memRead a =
      (match (List.range n).find? (fun k => maskAddr (s.indexAddr k) == maskAddr a) with
        | some k => s.reg (Fin.ofNat 16 k)
        | none => s.memRead a) := by
  have inj : ∀ j k, j < 16 → k < 16 → maskAddr (s.indexAddr j) = maskAddr (s.indexAddr k) → j = k := by
    intro j k hj hk h
    simp only [maskAddr, indexAddr, Config.memSize] at h
    omega
  induction n with
  | zero => simp [storeBlock]
  | succ k ih =>
    have ih := ih (by omega)
    simp only [storeBlock, memWrite_memRead, List.range_succ, List.find?_append]
    by_cases e : maskAddr (s.indexAddr k) = maskAddr a
    · have none_before : (List.range k).find? (fun j => maskAddr (s.indexAddr j) == maskAddr a) = none := by
        rw [List.find?_eq_none]
        intro j hj hja
        have hj : j < k := by simpa using hj
        have hja : maskAddr (s.indexAddr j) = maskAddr a := by simpa using hja
        have := inj j k (by omega) (by omega) (hja.trans e.symm)
        omega
      simp [e, none_before]
    · simp only [e, if_false, ih]
      have : ([k].find? fun j => maskAddr (s.indexAddr j) == maskAddr a) = none := by simp [e]
      rw [this, Option.or_none]

/-- What a register holds after a block is loaded: its byte of memory if it is in the block, else its old value. -/
theorem loadBlock_reg (s : State) (n : Nat) (r : Reg) (hn : n ≤ 16) :
    (s.loadBlock n).reg r = if r.val < n then s.memRead (s.indexAddr r.val) else s.reg r := by
  induction n with
  | zero => simp [loadBlock]
  | succ k ih =>
    have ih := ih (by omega)
    simp only [loadBlock, setReg_reg, ih]
    have hk : (Fin.ofNat 16 k).val = k := Nat.mod_eq_of_lt (by omega)
    by_cases e : r = Fin.ofNat 16 k
    · have : r.val = k := by rw [e, hk]
      rw [if_pos e, this, if_pos (by omega)]
    · have : r.val ≠ k := fun h => e (Fin.ext (by rw [hk, h]))
      rw [if_neg e]
      split_ifs <;> first | rfl | omega

/-- Storing a block keeps memory canonical. -/
theorem storeBlock_memWf (s : State) (n : Nat) (h : s.memWf = true) : (s.storeBlock n).memWf = true := by
  induction n with
  | zero => exact h
  | succ k ih => exact memWrite_memWf _ _ _ ih

/-! ### The end of a cycle -/

/-- A completed cycle ends with the decay. -/
theorem endCycle_running {s : State} (h : s.status = .running) : s.endCycle = s.decay := by
  unfold endCycle; rw [h]

/-- A faulting cycle ends as the fault left it: no decay. -/
theorem endCycle_halted {s : State} {f : FaultRecord} (h : s.status = .halted f) : s.endCycle = s := by
  unfold endCycle; rw [h]

/-- A timer's decay is truncated subtraction. -/
theorem decayTimer_toNat (t : Byte) : (decayTimer t).toNat = t.toNat - 1 := by
  unfold decayTimer
  split
  · next h => simp [h]
  · next h =>
    have : t.toNat ≠ 0 := fun e => h (BitVec.eq_of_toNat_eq (by simpa using e))
    rw [BitVec.toNat_sub]
    simp; omega

end Sys2Proof.Machine.State
end

