-- ==== Sys2Proof/Laws/Exec.lean ====
section
/-! SUPPORT. What the execute step and the cycle can do, said once: every meaning answers a next state, whose status is
the old one or that of a fault taken; one equation per case of the cycle. -/

namespace Sys2Proof.Machine

/-- Every instruction answers a next state: none stops or refuses, on any operands. -/
theorem exec_next (i : Instr) (s : State) : ∃ t : State, exec i s = .next t := by
  cases i <;> simp only [exec] <;> first | exact ⟨_, rfl⟩ | skip
  · unfold execRet; split <;> exact ⟨_, rfl⟩
  · unfold execCall; split <;> exact ⟨_, rfl⟩
  · unfold execSkp; split <;> exact ⟨_, rfl⟩
  · unfold execSknp; split <;> exact ⟨_, rfl⟩
  · unfold execLdVxK; split <;> exact ⟨_, rfl⟩

/-- An instruction keeps the status, or its next state is the old one with a fault taken. -/
theorem exec_status {i : Instr} {s t : State} (h : exec i s = .next t) :
    t.status = s.status ∨ ∃ k, t = s.raiseFault k := by
  cases i <;> simp only [exec] at h
  case ret =>
    unfold execRet at h
    split at h <;> simp only [Host.Outcome.next.injEq] at h <;> subst h
    · next hp => obtain ⟨_, _, rfl⟩ := State.pop_eq_some.mp hp; exact .inl rfl
    · exact .inr ⟨_, rfl⟩
  case call =>
    unfold execCall at h
    split at h <;> simp only [Host.Outcome.next.injEq] at h <;> subst h
    · next hp => obtain ⟨_, rfl⟩ := State.push_eq_some.mp hp; exact .inl rfl
    · exact .inr ⟨_, rfl⟩
  case skp =>
    unfold execSkp at h
    split at h <;> simp only [Host.Outcome.next.injEq] at h <;> subst h
    · exact .inl (State.skipIf_status _ _)
    · exact .inr ⟨_, rfl⟩
  case sknp =>
    unfold execSknp at h
    split at h <;> simp only [Host.Outcome.next.injEq] at h <;> subst h
    · exact .inl (State.skipIf_status _ _)
    · exact .inr ⟨_, rfl⟩
  case ldVxK =>
    unfold execLdVxK at h
    split at h <;> simp only [Host.Outcome.next.injEq] at h <;> subst h <;> exact .inl rfl
  case storeRegs x =>
    simp only [execStoreRegs, Host.Outcome.next.injEq] at h
    subst h
    left; simp only [State.advance_status, State.bumpI_status]; rw [State.storeBlock_eq]
  case loadRegs x =>
    simp only [execLoadRegs, Host.Outcome.next.injEq] at h
    subst h
    left; simp only [State.advance_status, State.bumpI_status]; rw [State.loadBlock_eq]
  all_goals
    left
    simp only [execCls, execSys, execJp, execSeImm, execSneImm, execSeReg, execSneReg, execLdImm, execAddImm,
      execLdReg, execOrReg, execAndReg, execXorReg, execAddReg, execSubReg, execSubn, execShr, execShl, execRnd,
      execLdI, execAddI, execLdF, execLdB, execLdVxDt, execLdDtVx, execLdStVx, execDrw, execJpV0,
      Host.Outcome.next.injEq] at h
    subst h
    rfl

/-- The cycle of a running machine whose word decodes. -/
theorem cycle_decoded {s t : State} {i : Instr} (hr : s.status = .running) (hd : decodeWord s.fetchWord = some i)
    (h : exec i s = .next t) : cycle s = .next ⟨t.endCycle, outcomeOf i s t, t.toneNow⟩ := by
  simp only [cycle, hr, runCycle, hd, runInstr, h]

/-- The cycle of a running machine whose word does not decode. -/
theorem cycle_illegal {s : State} (hr : s.status = .running) (hd : decodeWord s.fetchWord = none) :
    cycle s = .next ⟨s.raiseFault .invalidOpcode, .fault (s.faultRecord .invalidOpcode), false⟩ := by
  simp only [cycle, hr, runCycle, hd]

/-- The cycle of a halted machine: the same state, the same fault, no tone (R66). -/
theorem cycle_halted {s : State} {f : FaultRecord} (hh : s.status = .halted f) :
    cycle s = .next ⟨s, .fault f, false⟩ := by
  simp only [cycle, hh]

/-- The cycle of a machine that was never reset is refused (R66). -/
theorem cycle_uninitialised {s : State} (hu : s.status = .uninitialised) : cycle s = .refused .uninitialised := by
  simp only [cycle, hu]

/-- A cycle that answers: a halted machine repeated its fault, or a running one fetched an illegal word, or ran an
instruction. -/
theorem cycle_cases {s : State} {c : CycleResult} (h : cycle s = .next c) :
    (∃ f, s.status = .halted f ∧ c = ⟨s, .fault f, false⟩) ∨
    s.status = .running ∧
      ((decodeWord s.fetchWord = none ∧
          c = ⟨s.raiseFault .invalidOpcode, .fault (s.faultRecord .invalidOpcode), false⟩) ∨
        ∃ i t, decodeWord s.fetchWord = some i ∧ exec i s = .next t ∧
          c = ⟨t.endCycle, outcomeOf i s t, t.toneNow⟩) := by
  cases hs : s.status with
  | uninitialised => simp [cycle_uninitialised hs] at h
  | halted f =>
    rw [cycle_halted hs] at h
    exact .inl ⟨f, rfl, by simpa using h.symm⟩
  | running =>
    refine .inr ⟨rfl, ?_⟩
    cases hd : decodeWord s.fetchWord with
    | none =>
      rw [cycle_illegal hs hd] at h
      exact .inl ⟨rfl, by simpa using h.symm⟩
    | some i =>
      obtain ⟨t, ht⟩ := exec_next i s
      rw [cycle_decoded hs hd ht] at h
      exact .inr ⟨i, t, rfl, ht, by simpa using h.symm⟩

/-- The step of a halted machine changes nothing (R66). -/
theorem step_halted {s : State} {f : FaultRecord} (hh : s.status = .halted f) : step s = .next s := by
  simp only [step, cycle_halted hh, dropOutputs]

/-- A step that answers is a cycle's next state. -/
theorem step_eq_next {s t : State} : step s = .next t ↔ ∃ c, cycle s = .next c ∧ c.state = t := by
  unfold step
  cases cycle s <;> simp [dropOutputs]

end Sys2Proof.Machine
end

