-- ==== Sys2Proof/Laws/PerInstr.lean ====
section
/-! SUPPORT. One fact per instruction, about it as a word: what it encodes to matches its own row of R52. The masks
and matches stand here as spec/opcode_table.json prints them, apart from `encode` and from `opcodeMap`. -/

namespace Sys2Proof.Laws.OpcodeRowMatch

/-- The mask and the match of the instruction's row in R52. -/
def maskAndMatch : Instr → Word × Word
  | .cls => (0xFFFF, 0x00E0)
  | .ret => (0xFFFF, 0x00EE)
  | .sys _ => (0xF000, 0x0000)
  | .jp _ => (0xF000, 0x1000)
  | .call _ => (0xF000, 0x2000)
  | .seImm _ _ => (0xF000, 0x3000)
  | .sneImm _ _ => (0xF000, 0x4000)
  | .seReg _ _ => (0xF00F, 0x5000)
  | .ldImm _ _ => (0xF000, 0x6000)
  | .addImm _ _ => (0xF000, 0x7000)
  | .ldReg _ _ => (0xF00F, 0x8000)
  | .orReg _ _ => (0xF00F, 0x8001)
  | .andReg _ _ => (0xF00F, 0x8002)
  | .xorReg _ _ => (0xF00F, 0x8003)
  | .addReg _ _ => (0xF00F, 0x8004)
  | .subReg _ _ => (0xF00F, 0x8005)
  | .shr _ _ => (0xF00F, 0x8006)
  | .subn _ _ => (0xF00F, 0x8007)
  | .shl _ _ => (0xF00F, 0x800E)
  | .sneReg _ _ => (0xF00F, 0x9000)
  | .ldI _ => (0xF000, 0xA000)
  | .jpV0 _ => (0xF000, 0xB000)
  | .rnd _ _ => (0xF000, 0xC000)
  | .drw _ _ _ => (0xF000, 0xD000)
  | .skp _ => (0xF0FF, 0xE09E)
  | .sknp _ => (0xF0FF, 0xE0A1)
  | .ldVxDt _ => (0xF0FF, 0xF007)
  | .ldVxK _ => (0xF0FF, 0xF00A)
  | .ldDtVx _ => (0xF0FF, 0xF015)
  | .ldStVx _ => (0xF0FF, 0xF018)
  | .addI _ => (0xF0FF, 0xF01E)
  | .ldF _ => (0xF0FF, 0xF029)
  | .ldB _ => (0xF0FF, 0xF033)
  | .storeRegs _ => (0xF0FF, 0xF055)
  | .loadRegs _ => (0xF0FF, 0xF065)

/-- The word of the instruction matches its row: `w & mask = match`. -/
def Statement (i : Instr) : Prop := encode i &&& (maskAndMatch i).1 = (maskAndMatch i).2

/-! ### A mask over an encoded word, field by field -/

theorem and_allOnes4 (b : BitVec 4) : b &&& 0xF#4 = b := BitVec.and_allOnes

theorem opMask_encodeA (op : BitVec 4) (nnn : Imm12) : encodeA op nnn &&& 0xF000#16 = op ++ 0x000#12 :=
  (BitVec.and_append (x₁ := op) (x₂ := 0xF#4) (y₁ := nnn) (y₂ := 0x000#12)).trans
    (congrArg₂ (· ++ ·) (and_allOnes4 op) BitVec.and_zero)

theorem opMask_encodeXK (op : BitVec 4) (x : Reg) (kk : Imm8) : encodeXK op x kk &&& 0xF000#16 = op ++ 0x000#12 :=
  opMask_encodeA op (Reg.bits x ++ kk)

theorem opMask_encodeXYN (op : BitVec 4) (x y : Reg) (n : Imm4) :
    encodeXYN op x y n &&& 0xF000#16 = op ++ 0x000#12 :=
  opMask_encodeA op (Reg.bits x ++ (Reg.bits y ++ n))

theorem opKkMask_encodeXK (op : BitVec 4) (x : Reg) (kk : Imm8) :
    encodeXK op x kk &&& 0xF0FF#16 = op ++ (0x0#4 ++ kk) :=
  (BitVec.and_append (x₁ := op) (x₂ := 0xF#4) (y₁ := Reg.bits x ++ kk) (y₂ := 0x0#4 ++ 0xFF#8)).trans
    (congrArg₂ (· ++ ·) (and_allOnes4 op)
      (BitVec.and_append.trans (congrArg₂ (· ++ ·) BitVec.and_zero BitVec.and_allOnes)))

theorem opNMask_encodeXYN (op : BitVec 4) (x y : Reg) (n : Imm4) :
    encodeXYN op x y n &&& 0xF00F#16 = op ++ (0x00#8 ++ n) := by
  have h : (Reg.bits x ++ Reg.bits y ++ n) = (Reg.bits x ++ (Reg.bits y ++ n)) := BitVec.append_assoc ..
  unfold encodeXYN
  rw [← h]
  exact (BitVec.and_append (x₁ := op) (x₂ := 0xF#4) (y₂ := 0x00#8 ++ 0xF#4)).trans
    (congrArg₂ (· ++ ·) (and_allOnes4 op)
      (BitVec.and_append.trans (congrArg₂ (· ++ ·) BitVec.and_zero (and_allOnes4 n))))

/-! ### The instructions -/

theorem cls : Statement .cls := rfl

theorem ret : Statement .ret := rfl

theorem sys (nnn : Imm12) : Statement (.sys nnn) := opMask_encodeA 0x0 nnn

theorem jp (nnn : Imm12) : Statement (.jp nnn) := opMask_encodeA 0x1 nnn

theorem call (nnn : Imm12) : Statement (.call nnn) := opMask_encodeA 0x2 nnn

theorem seImm (x : Reg) (kk : Imm8) : Statement (.seImm x kk) := opMask_encodeXK 0x3 x kk

theorem sneImm (x : Reg) (kk : Imm8) : Statement (.sneImm x kk) := opMask_encodeXK 0x4 x kk

theorem seReg (x : Reg) (y : Reg) : Statement (.seReg x y) := opNMask_encodeXYN 0x5 x y 0x0

theorem ldImm (x : Reg) (kk : Imm8) : Statement (.ldImm x kk) := opMask_encodeXK 0x6 x kk

theorem addImm (x : Reg) (kk : Imm8) : Statement (.addImm x kk) := opMask_encodeXK 0x7 x kk

theorem ldReg (x : Reg) (y : Reg) : Statement (.ldReg x y) := opNMask_encodeXYN 0x8 x y 0x0

theorem orReg (x : Reg) (y : Reg) : Statement (.orReg x y) := opNMask_encodeXYN 0x8 x y 0x1

theorem andReg (x : Reg) (y : Reg) : Statement (.andReg x y) := opNMask_encodeXYN 0x8 x y 0x2

theorem xorReg (x : Reg) (y : Reg) : Statement (.xorReg x y) := opNMask_encodeXYN 0x8 x y 0x3

theorem addReg (x : Reg) (y : Reg) : Statement (.addReg x y) := opNMask_encodeXYN 0x8 x y 0x4

theorem subReg (x : Reg) (y : Reg) : Statement (.subReg x y) := opNMask_encodeXYN 0x8 x y 0x5

theorem shr (x : Reg) (y : Reg) : Statement (.shr x y) := opNMask_encodeXYN 0x8 x y 0x6

theorem subn (x : Reg) (y : Reg) : Statement (.subn x y) := opNMask_encodeXYN 0x8 x y 0x7

theorem shl (x : Reg) (y : Reg) : Statement (.shl x y) := opNMask_encodeXYN 0x8 x y 0xE

theorem sneReg (x : Reg) (y : Reg) : Statement (.sneReg x y) := opNMask_encodeXYN 0x9 x y 0x0

theorem ldI (nnn : Imm12) : Statement (.ldI nnn) := opMask_encodeA 0xA nnn

theorem jpV0 (nnn : Imm12) : Statement (.jpV0 nnn) := opMask_encodeA 0xB nnn

theorem rnd (x : Reg) (kk : Imm8) : Statement (.rnd x kk) := opMask_encodeXK 0xC x kk

theorem drw (x : Reg) (y : Reg) (n : Imm4) : Statement (.drw x y n) := opMask_encodeXYN 0xD x y n

theorem skp (x : Reg) : Statement (.skp x) := opKkMask_encodeXK 0xE x 0x9E

theorem sknp (x : Reg) : Statement (.sknp x) := opKkMask_encodeXK 0xE x 0xA1

theorem ldVxDt (x : Reg) : Statement (.ldVxDt x) := opKkMask_encodeXK 0xF x 0x07

theorem ldVxK (x : Reg) : Statement (.ldVxK x) := opKkMask_encodeXK 0xF x 0x0A

theorem ldDtVx (x : Reg) : Statement (.ldDtVx x) := opKkMask_encodeXK 0xF x 0x15

theorem ldStVx (x : Reg) : Statement (.ldStVx x) := opKkMask_encodeXK 0xF x 0x18

theorem addI (x : Reg) : Statement (.addI x) := opKkMask_encodeXK 0xF x 0x1E

theorem ldF (x : Reg) : Statement (.ldF x) := opKkMask_encodeXK 0xF x 0x29

theorem ldB (x : Reg) : Statement (.ldB x) := opKkMask_encodeXK 0xF x 0x33

theorem storeRegs (x : Reg) : Statement (.storeRegs x) := opKkMask_encodeXK 0xF x 0x55

theorem loadRegs (x : Reg) : Statement (.loadRegs x) := opKkMask_encodeXK 0xF x 0x65

end Sys2Proof.Laws.OpcodeRowMatch
end

