-- ==== Sys2Proof/Tests/Slice0.lean ====
section
/-! SUPPORT. The model's own tests. Expected values are those of spec/95_test_vectors.md, whose vector is named in each
docstring, or worked out by hand from the cited rule. After them, for every statement with hypotheses, a witness that
meets them. -/

namespace Sys2Proof.Tests

open Sys2Proof Sys2Proof.Machine

-- One test at a time: tests checked by the kernel wait for each other, and many waiting at once use up the threads.
set_option Elab.async false

/-! ### Small states -/

/-- S0 with some registers set. -/
def regs (l : List (Reg × Byte)) : State := l.foldl (fun s p => s.setReg p.1 p.2) State.reset

/-- Some bytes written. -/
def poke (l : List (Nat × Byte)) (s : State) : State := l.foldl (fun s p => s.memWrite p.1 p.2) s

/-- One step of the state with this word at `pc`. -/
def after (w : Nat) (s : State) : Option State :=
  match step (s.withFetchWord 16 w) with
  | .next t => some t
  | .fault _ | .refused _ => none

/-- The tone of that cycle. -/
def toneOf (w : Nat) (s : State) : Option Bool :=
  match cycle (s.withFetchWord 16 w) with
  | .next c => some c.tone
  | .fault _ | .refused _ => none

/-- The outcome of that cycle. -/
def outcomeAt (w : Nat) (s : State) : Option CycleOutcome :=
  match cycle (s.withFetchWord 16 w) with
  | .next c => some c.outcome
  | .fault _ | .refused _ => none

/-- Registers, then `pc`. -/
def look (rs : List Reg) (o : Option State) : Option (List Byte × Word) := o.map (fun t => (rs.map t.reg, t.pc))

/-- `I` and some bytes of memory. -/
def lookMem (as : List Nat) (o : Option State) : Option (Word × List Byte) := o.map (fun t => (t.i, as.map t.memRead))

/-- `pc` alone. -/
def pcOf (o : Option State) : Option Word := o.map (·.pc)

/-- The pixels set in one row. -/
def rowOf (r : Fin 32) (o : Option State) : Option (List Nat) :=
  o.map (fun t => (List.range 64).filter (fun c => t.fb.pixel r (Fin.ofNat 64 c)))

/-! ### Well-formedness: each check refuses its ill-formed term -/

theorem test_sys_0E0_is_ill_formed : (Instr.sys 0x0E0).wellFormed = false := by decide
theorem test_sys_0EE_is_ill_formed : (Instr.sys 0x0EE).wellFormed = false := by decide
theorem test_sys_0E1_is_well_formed : (Instr.sys 0x0E1).wellFormed = true := by decide

/-! ### Decoding: a word of every constructor, written out from the Encoding line of its rule -/

theorem test_decode_display_and_control :
    decodeWord 0b0000000011100000 = some .cls ∧ decodeWord 0b0000000011101110 = some .ret ∧
    decodeWord 0b0000000011100001 = some (.sys 0x0E1) ∧ decodeWord 0b0001001000101000 = some (.jp 0x228) ∧
    decodeWord 0b0010001000010000 = some (.call 0x210) ∧ decodeWord 0b1011001100000000 = some (.jpV0 0x300) ∧
    decodeWord 0b1101000000010101 = some (.drw 0 1 5) := by decide

theorem test_decode_skips :
    decodeWord 0b0011000100000000 = some (.seImm 1 0x00) ∧ decodeWord 0b0100001000000101 = some (.sneImm 2 0x05) ∧
    decodeWord 0b0101001101000000 = some (.seReg 3 4) ∧ decodeWord 0b1001001101000000 = some (.sneReg 3 4) ∧
    decodeWord 0b1110000010011110 = some (.skp 0) ∧ decodeWord 0b1110000010100001 = some (.sknp 0) := by decide

theorem test_decode_register_alu :
    decodeWord 0b0110101001111011 = some (.ldImm 10 0x7B) ∧ decodeWord 0b0111000000000001 = some (.addImm 0 0x01) ∧
    decodeWord 0b1000000000010000 = some (.ldReg 0 1) ∧ decodeWord 0b1000000000010001 = some (.orReg 0 1) ∧
    decodeWord 0b1000000000010010 = some (.andReg 0 1) ∧ decodeWord 0b1000000000010011 = some (.xorReg 0 1) ∧
    decodeWord 0b1000000000010100 = some (.addReg 0 1) ∧ decodeWord 0b1000000000010101 = some (.subReg 0 1) ∧
    decodeWord 0b1000000000110110 = some (.shr 0 3) ∧ decodeWord 0b1000000000010111 = some (.subn 0 1) ∧
    decodeWord 0b1000000000111110 = some (.shl 0 3) ∧ decodeWord 0b1100001100001111 = some (.rnd 3 0x0F) := by decide

theorem test_decode_index_memory :
    decodeWord 0b1010001100000000 = some (.ldI 0x300) ∧ decodeWord 0b1111001000011110 = some (.addI 2) ∧
    decodeWord 0b1111001000101001 = some (.ldF 2) ∧ decodeWord 0b1111101000110011 = some (.ldB 10) ∧
    decodeWord 0b1111001001010101 = some (.storeRegs 2) ∧ decodeWord 0b1111001001100101 = some (.loadRegs 2) := by
  decide

theorem test_decode_timers_keypad :
    decodeWord 0b1111010000000111 = some (.ldVxDt 4) ∧ decodeWord 0b1111010100001010 = some (.ldVxK 5) ∧
    decodeWord 0b1111001100010101 = some (.ldDtVx 3) ∧ decodeWord 0b1111000000011000 = some (.ldStVx 0) := by decide

/-- F1, S10: illegal words. -/
theorem test_decode_illegal :
    ([0x5121, 0x8008, 0x8009, 0x800F, 0x9001, 0xE000, 0xE09F, 0xEFA2, 0xF000, 0xF0FF, 0xF008, 0xF066, 0x5341, 0x934F] :
      List Word).all (fun w => (decodeWord w).isNone) = true := by decide

/-- R37: two bytes, the first the high one; what follows is left over, and one byte is no instruction. -/
theorem test_decode_bytes :
    decode [0x22, 0x06, 0x12] = .ok (.call 0x206, [0x12]) ∧ decode [0x80, 0x08] = .error (.invalidOpcode 0x8008) ∧
    decode [0x22] = .error .truncated := ⟨rfl, rfl, rfl⟩

theorem test_table_word : decodeTableWord 16 0x8014 = some (.addReg 0 1) := by decide

/-! ### Control transfer -/

/-- C6, C8. -/
theorem test_sys_jumps : pcOf (after 0x0000 State.reset) = some 0 ∧ pcOf (after 0x0FFF State.reset) = some 0xFFF := by
  decide +kernel

/-- C9: a park decays DT. -/
theorem test_jp_parks : (after 0x1200 { State.reset with dt := 3 }).map (fun t => (t.pc, t.dt)) = some (0x200, 2) := by
  decide +kernel

/-- C4. -/
theorem test_call_sixteenth : (after 0x2400 { State.reset with sp := 15, pc := 0x300 }).map
    (fun t => (t.stack[15], t.sp, t.pc)) = some (0x300, 16, 0x400) := by decide +kernel

/-- C5. -/
theorem test_call_overflow : (after 0x2400 { State.reset with sp := 16, pc := 0x300 }).map
    (fun t => (t.status, t.sp, t.pc)) = some (.halted ⟨.stackOverflow, 0x300, 0x2400⟩, 16, 0x300) := by decide +kernel

/-- C2, C3. -/
theorem test_ret_wraps_and_keeps_the_slot :
    (after 0x00EE { State.reset with sp := 3, pc := 0x400, stack := State.reset.stack.set 2 0x0FFE }).map
      (fun t => (t.sp, t.pc, t.stack[2])) = some (2, 0x1000, 0x0FFE) ∧
    (after 0x00EE { State.reset with sp := 1, stack := State.reset.stack.set 0 0xFFFE }).map
      (fun t => (t.sp, t.pc)) = some (0, 0) := by decide +kernel

/-- C1. -/
theorem test_ret_underflow : (after 0x00EE State.reset).map (fun t => (t.status, t.sp)) =
    some (.halted ⟨.stackUnderflow, 0x200, 0x00EE⟩, 0) := by decide +kernel

/-- C10, C11. -/
theorem test_jpV0_adds_unmasked : pcOf (after 0xB123 (regs [(0, 0x10)])) = some 0x133 ∧
    pcOf (after 0xBFFF (regs [(0, 0xFF)])) = some 0x10FE := by decide +kernel

/-! ### Conditional skips -/

/-- S1, S2, S3. -/
theorem test_seImm : pcOf (after 0x3100 State.reset) = some 0x204 ∧ pcOf (after 0x3100 (regs [(1, 1)])) = some 0x202 ∧
    pcOf (after 0x3000 { State.reset with pc := 0xFFFE }) = some 0x0002 := by decide +kernel

/-- S5. -/
theorem test_sneImm : pcOf (after 0x4205 (regs [(2, 5)])) = some 0x202 ∧
    pcOf (after 0x4206 (regs [(2, 5)])) = some 0x204 := by decide +kernel

/-- S7, S8. -/
theorem test_seReg : pcOf (after 0x5550 (regs [(5, 9)])) = some 0x204 ∧
    pcOf (after 0x5340 (regs [(3, 0x10), (4, 0x11)])) = some 0x202 := by decide +kernel

/-- S8, S9. -/
theorem test_sneReg : pcOf (after 0x9340 (regs [(3, 0x10), (4, 0x11)])) = some 0x204 ∧
    pcOf (after 0x9550 (regs [(5, 9)])) = some 0x202 := by decide +kernel

/-- S11, S12, S13. -/
theorem test_skp : pcOf (after 0xE09E ((regs [(0, 0x0A)]).writeKey 10 true)) = some 0x204 ∧
    pcOf (after 0xE09E (regs [(0, 0x0A)])) = some 0x202 ∧
    pcOf (after 0xE09E ((regs [(0, 0x0F)]).writeKey 15 true)) = some 0x204 := by decide +kernel

/-- S11, S12. -/
theorem test_sknp : pcOf (after 0xE0A1 ((regs [(0, 0x0A)]).writeKey 10 true)) = some 0x202 ∧
    pcOf (after 0xE0A1 (regs [(0, 0x0A)])) = some 0x204 := by decide +kernel

/-- S14. -/
theorem test_key_index_fault : (after 0xE0A1 (regs [(0, 0x10)])).map (·.status) =
    some (.halted ⟨.keyIndexOutOfRange, 0x200, 0xE0A1⟩) := by decide +kernel

/-! ### Register loads and the ALU -/

/-- A1. -/
theorem test_ldImm : look [10] (after 0x6A7B State.reset) = some ([0x7B], 0x202) := by decide +kernel

/-- A2, A4. -/
theorem test_addImm_wraps_without_flag :
    look [0, 15] (after 0x7001 (regs [(0, 0xFF), (15, 0x55)])) = some ([0x00, 0x55], 0x202) ∧
    look [15] (after 0x7F05 (regs [(15, 0x10)])) = some ([0x15], 0x202) := by decide +kernel

/-- A5. -/
theorem test_ldReg : look [0] (after 0x8010 (regs [(1, 0x42)])) = some ([0x42], 0x202) := by decide +kernel

/-- A6. -/
theorem test_bitwise :
    look [0, 15] (after 0x8011 (regs [(0, 0x0F), (1, 0xF0), (15, 0x77)])) = some ([0xFF, 0x77], 0x202) ∧
    look [0, 15] (after 0x8012 (regs [(0, 0x3C), (1, 0x0F), (15, 0x77)])) = some ([0x0C, 0x77], 0x202) ∧
    look [0, 15] (after 0x8013 (regs [(0, 0x0F), (1, 0xF0), (15, 0x77)])) = some ([0xFF, 0x77], 0x202) := by
  decide +kernel

/-- A9. -/
theorem test_addReg_carry : look [0, 15] (after 0x8014 (regs [(0, 0xFF), (1, 0x01)])) = some ([0x00, 1], 0x202) ∧
    look [0, 15] (after 0x8014 (regs [(0, 0x7F), (1, 0x01)])) = some ([0x80, 0], 0x202) := by decide +kernel

/-- A11, A12. -/
theorem test_addReg_vf : look [15] (after 0x8F14 (regs [(15, 0x10), (1, 0xF5)])) = some ([0x05], 0x202) ∧
    look [1, 15] (after 0x81F4 (regs [(1, 0x01), (15, 0xFF)])) = some ([0x00, 1], 0x202) := by decide +kernel

/-- A13. -/
theorem test_subReg_strict : look [0, 15] (after 0x8015 (regs [(0, 1), (1, 2)])) = some ([0xFF, 0], 0x202) ∧
    look [0, 15] (after 0x8015 (regs [(0, 5), (1, 5)])) = some ([0x00, 0], 0x202) := by decide +kernel

/-- A14, A15, A16. -/
theorem test_subReg_vf : look [15] (after 0x8F15 (regs [(15, 5), (1, 3)])) = some ([0xFE], 0x202) ∧
    look [1, 15] (after 0x81F5 (regs [(1, 5), (15, 3)])) = some ([0x04, 1], 0x202) ∧
    look [15] (after 0x8FF5 (regs [(15, 7)])) = some ([0], 0x202) := by decide +kernel

/-- A18, A19. -/
theorem test_shr : look [0, 15, 3] (after 0x8036 (regs [(0, 0xFF), (3, 0x12)])) = some ([0x7F, 1, 0x12], 0x202) ∧
    look [15] (after 0x8F06 (regs [(15, 0xFF)])) = some ([0], 0x202) := by decide +kernel

/-- A20. -/
theorem test_subn : look [0, 15] (after 0x8017 (regs [(0, 1), (1, 3)])) = some ([0x02, 1], 0x202) ∧
    look [0, 15] (after 0x8017 (regs [(0, 3), (1, 1)])) = some ([0xFE, 0], 0x202) := by decide +kernel

/-- A21, A22. -/
theorem test_subn_vf : look [15] (after 0x8F17 (regs [(15, 1), (1, 5)])) = some ([0x04], 0x202) ∧
    look [1, 15] (after 0x81F7 (regs [(1, 0x10), (15, 0x20)])) = some ([0xF1, 1], 0x202) := by decide +kernel

/-- A23, A24. -/
theorem test_shl : look [0, 15] (after 0x800E (regs [(0, 0x81)])) = some ([0x02, 1], 0x202) ∧
    look [15] (after 0x8F0E (regs [(15, 0x80)])) = some ([0x02], 0x202) := by decide +kernel

/-- A25 with `kk = 0`: 0 whatever the random byte is. -/
theorem test_rnd_zero_mask (s : State) : ∃ t, exec (.rnd 3 0) s = .next t ∧ t.pc = s.pc + 2 ∧ t.reg 3 = 0 := by
  refine ⟨_, rfl, rfl, ?_⟩
  simp [State.reg, State.advance, State.setReg, State.setPc]

/-! ### The index register and memory -/

/-- M1. -/
theorem test_ldI : (after 0xA300 { State.reset with i := 0xFFFF }).map (·.i) = some 0x0300 := by decide +kernel

/-- M2, M3. -/
theorem test_addI : (after 0xF21E { regs [(2, 2)] with i := 0x0FFF }).map (·.i) = some 0x1001 ∧
    (after 0xF01E { regs [(0, 1), (15, 0x33)] with i := 0xFFFF }).map (fun t => (t.i, t.reg 15)) =
      some (0, 0x33) := by decide +kernel

/-- M4. -/
theorem test_ldF : (after 0xF229 (regs [(2, 0x07)])).map (·.i) = some 0x0023 ∧
    (after 0xF229 (regs [(2, 0xFF)])).map (fun t => (t.i, t.pc)) = some (0x04FB, 0x202) := by decide +kernel

/-- M5, M6. -/
theorem test_ldB : lookMem [0x300, 0x301, 0x302] (after 0xFA33 { regs [(10, 255)] with i := 0x300 }) =
      some (0x300, [2, 5, 5]) ∧
    lookMem [0xFFF, 0, 1] (after 0xFA33 { regs [(10, 0x7B)] with i := 0x0FFF }) = some (0x0FFF, [1, 2, 3]) := by
  decide +kernel

/-- M10, M11. -/
theorem test_storeRegs :
    lookMem [0xFFE, 0xFFF, 0, 1] (after 0xF255 { regs [(0, 0x11), (1, 0x22), (2, 0x33)] with i := 0x0FFE }) =
      some (0x1001, [0x11, 0x22, 0x33, 0x90]) ∧
    lookMem [0xFFF] (after 0xF055 { regs [(0, 0x5A)] with i := 0xFFFF }) = some (0, [0x5A]) := by decide +kernel

/-- M13 (glyphs), and M12's last register. -/
theorem test_loadRegs : (after 0xF165 State.reset).map (fun t => (t.reg 0, t.reg 1, t.reg 2, t.i)) =
      some (0xF0, 0x90, 0, 2) ∧
    (after 0xFF65 { poke [(0x30F, 0x9C)] State.reset with i := 0x300 }).map (fun t => (t.reg 15, t.i)) =
      some (0x9C, 0x310) := by decide +kernel

/-! ### Timers and the key wait -/

/-- T1. -/
theorem test_ldVxDt : (after 0xF407 { State.reset with dt := 4 }).map (fun t => (t.reg 4, t.dt, t.pc)) =
    some (4, 3, 0x202) := by decide +kernel

/-- T6, T10: waiting, the timers decay and the tone fires. -/
theorem test_ldVxK_waits : (after 0xF50A { State.reset with dt := 3 }).map (fun t => (t.pc, t.reg 5, t.dt)) =
      some (0x200, 0, 2) ∧ toneOf 0xF00A { State.reset with dt := 1, st := 1 } = some true ∧
    outcomeAt 0xF50A State.reset = some .waiting := by decide +kernel

/-- T7, T9. -/
theorem test_ldVxK_least : look [5] (after 0xF50A ((State.reset.writeKey 9 true).writeKey 3 true)) = some ([3], 0x202) ∧
    look [15] (after 0xFF0A (State.reset.writeKey 14 true)) = some ([14], 0x202) := by decide +kernel

/-- T3. -/
theorem test_ldDtVx : (after 0xF315 (regs [(3, 5)])).map (·.dt) = some 4 ∧
    (after 0xF315 (regs [(3, 0)])).map (·.dt) = some 0 := by decide +kernel

/-- T4, T5. -/
theorem test_ldStVx : (after 0xF018 (regs [(0, 3)])).map (·.st) = some 2 ∧ toneOf 0xF018 (regs [(0, 1)]) = some true ∧
    toneOf 0xF018 { regs [(0, 5)] with st := 1 } = some false := by decide +kernel

/-! ### The display -/

/-- D1. -/
theorem test_cls : (after 0x00E0 { regs [(15, 0x44)] with fb := State.reset.fb.flip 2 9 }).map
    (fun t => (t.fb == State.reset.fb, t.redraw, t.reg 15, t.pc)) = some (true, false, 0x44, 0x202) := by decide +kernel

/-- D2: wrap at both edges. -/
theorem test_drw_wraps :
    rowOf 31 (after 0xD012 (poke [(0x300, 0xFF), (0x301, 0x81)] { regs [(0, 62), (1, 31)] with i := 0x300 })) =
      some [0, 1, 2, 3, 4, 5, 62, 63] ∧
    rowOf 0 (after 0xD012 (poke [(0x300, 0xFF), (0x301, 0x81)] { regs [(0, 62), (1, 31)] with i := 0x300 })) =
      some [5, 62] := by decide +kernel

/-- D5, D6: a collision, and VF as a coordinate. -/
theorem test_drw_collision :
    (after 0xD011 (poke [(0x300, 0xC0)] { State.reset with fb := State.reset.fb.flip 0 0, i := 0x300 })).map
      (fun t => (t.fb.pixel 0 0, t.fb.pixel 0 1, t.reg 15, t.redraw)) = some (false, true, 1, true) ∧
    (after 0xDF11 (poke [(0x300, 0x80)] { regs [(15, 3)] with i := 0x300 })).map
      (fun t => (t.fb.pixel 0 3, t.reg 15)) = some (true, 0) := by decide +kernel

/-! ### The cycle -/

/-- EN1: the fetch wraps at the top of memory. -/
theorem test_fetch_wraps :
    ({ poke [(0xFFF, 0x12)] State.reset with pc := 0x0FFF } : State).fetchWord = 0x12F0 := by decide +kernel

/-- EN4, EN5. -/
theorem test_decay_and_tone :
    (after 0x6000 { State.reset with dt := 1, st := 1 }).map (fun t => (t.dt, t.st)) = some (0, 0) ∧
    toneOf 0x6000 { State.reset with dt := 1, st := 1 } = some true ∧
    toneOf 0x6000 { State.reset with dt := 2, st := 2 } = some false := by decide +kernel

/-- W10, F3: an illegal word halts, and neither timer decays. -/
theorem test_illegal_word_halts :
    (after 0x8008 { regs [(0, 9)] with dt := 5, st := 1 }).map (fun t => (t.status, t.pc, t.reg 0, t.dt, t.st)) =
      some (.halted ⟨.invalidOpcode, 0x200, 0x8008⟩, 0x200, 9, 5, 1) ∧
    toneOf 0x8008 { State.reset with st := 1 } = some false := by decide +kernel

/-- F2, F4: the halted cycle repeats its fault with no tone, although ST is 1. -/
theorem test_halted_and_uninitialised_run_nothing :
    cycle { State.reset with status := .halted ⟨.invalidOpcode, 0x200, 0x8008⟩, st := 1 } =
      .next ⟨{ State.reset with status := .halted ⟨.invalidOpcode, 0x200, 0x8008⟩, st := 1 },
        .fault ⟨.invalidOpcode, 0x200, 0x8008⟩, false⟩ ∧
    step { State.reset with status := .uninitialised } = .refused .uninitialised := ⟨rfl, rfl⟩

/-! ### The host -/

/-- W2, F7: a load resets, restores the glyphs and keeps the keypad. -/
theorem test_load_resets :
    (((poke [(0, 0)] ((regs [(3, 7)]).writeKey 4 true)).loadRom (.bytes [0x12, 0x00])).2) =
      poke [(0x200, 0x12)] (State.reset.writeKey 4 true) := by decide +kernel

/-- F5 and the codes of R109. -/
theorem test_load_unreadable : (regs [(3, 7)]).loadRom .unreadable = (.romUnreadable, regs [(3, 7)]) ∧
    LoadResult.romUnreadable.code = some 17 ∧ LoadResult.romTooLarge.code = some 16 ∧
    FaultKind.invalidOpcode.code = 1 ∧ FaultKind.keyIndexOutOfRange.code = 4 := by decide +kernel

/-- W1: 3585 bytes are too many. -/
theorem test_load_too_large : (State.reset.loadRom (.bytes (List.replicate 3585 0x12))).1 = .romTooLarge := by
  decide +kernel

/-- D8. -/
theorem test_read_clear_redraw : ({ State.reset with redraw := true } : State).readClearRedraw = (true, State.reset) := by
  decide +kernel

/-- F6: a load of nothing, then two cycles. -/
theorem test_empty_memory_faults_in_the_glyphs :
    (match runEvents [.host (.load (.bytes [])), .cycle, .cycle] State.reset with
      | .next t => some (t.pc, t.status)
      | .fault _ | .refused _ => none) = some (0, .halted ⟨.invalidOpcode, 0x000, 0xF090⟩) := by decide +kernel

/-! ### Witnesses: a state and operands that meet each statement's hypotheses -/

theorem witness_DecodeOfEncodedBytesGivesTheInstruction : (Instr.sys 0x0E1).wellFormed = true := by decide

theorem witness_EncodeOfDecodedWordGivesTheWord : decodeWord 0x8036 = some (.shr 0 3) := by decide

theorem witness_DecoderFollowsTheOpcodeMap : Word.op 0x8014 ≠ 0 := by decide

theorem witness_StepRunsTheDecodedInstruction :
    (State.reset.withFetchWord 16 0x8014).status = .running ∧
    decodeWord (State.reset.withFetchWord 16 0x8014).fetchWord = some (.addReg 0 1) := by decide +kernel

/-- Each of the four causes, the last three at the boundary of their range. -/
theorem witness_FaultingCycleChangesOnlyTheStatus :
    (State.reset.withFetchWord 16 0x8008).status = .running ∧
    faultCause (State.reset.withFetchWord 16 0x8008) = some .invalidOpcode ∧
    faultCause ({ State.reset with sp := 16 }.withFetchWord 16 0x2200) = some .stackOverflow ∧
    faultCause (State.reset.withFetchWord 16 0x00EE) = some .stackUnderflow ∧
    faultCause ((regs [(0, 16)]).withFetchWord 16 0xE09E) = some .keyIndexOutOfRange ∧
    faultCause ((regs [(0, 16)]).withFetchWord 16 0xE0A1) = some .keyIndexOutOfRange := by decide +kernel

/-- No cause at the other side of each boundary, and a wait. -/
theorem witness_CycleWithoutAFaultCauseCompletes :
    faultCause ({ State.reset with sp := 15 }.withFetchWord 16 0x2200) = none ∧
    faultCause ({ State.reset with sp := 1 }.withFetchWord 16 0x00EE) = none ∧
    faultCause ((regs [(0, 15)]).withFetchWord 16 0xE09E) = none ∧
    (State.reset.withFetchWord 16 0xF00A).status = .running ∧
    faultCause (State.reset.withFetchWord 16 0xF00A) = none ∧
    decodeWord (State.reset.withFetchWord 16 0xF00A).fetchWord = some (.ldVxK 0) ∧
    (∀ k : Fin 16, (State.reset.withFetchWord 16 0xF00A).keyPressed k = false) := by decide +kernel

theorem witness_HaltedOrUnresetMachineRunsNothing :
    ({ State.reset with status := .halted ⟨.invalidOpcode, 0, 0⟩ } : State).status = .halted ⟨.invalidOpcode, 0, 0⟩ ∧
    ({ State.reset with status := .uninitialised } : State).status = .uninitialised := ⟨rfl, rfl⟩

theorem witness_CompletedCycleDecaysBothTimers :
    ({ State.reset with st := 1 }.withFetchWord 16 0x1200).status = .running ∧
    decodeWord ({ State.reset with st := 1 }.withFetchWord 16 0x1200).fetchWord = some (.jp 0x200) ∧
    exec (.jp 0x200) ({ State.reset with st := 1 }.withFetchWord 16 0x1200) =
      .next ({ State.reset with st := 1 }.withFetchWord 16 0x1200) ∧
    outcomeAt 0x8008 State.reset = some (.fault ⟨.invalidOpcode, 0x200, 0x8008⟩) ∧
    (∃ c, cycle { State.reset with status := .halted ⟨.invalidOpcode, 0x200, 0x8008⟩ } = .next c ∧
      c.outcome = .fault ⟨.invalidOpcode, 0x200, 0x8008⟩) :=
  ⟨rfl, by decide +kernel, rfl, by decide +kernel, ⟨_, rfl, rfl⟩⟩

theorem witness_ToneMarksSoundTimerGoingFromOneToZero :
    (∃ c, cycle ({ State.reset with st := 1 }.withFetchWord 16 0x1200) = .next c) ∧
    toneOf 0x1200 { State.reset with st := 1 } = some true ∧ toneOf 0x1200 State.reset = some false :=
  ⟨⟨_, rfl⟩, by decide +kernel, by decide +kernel⟩

theorem witness_RegistersAreWrittenOnlyByTheirInstructions :
    (∃ t, exec (.addReg 0 1) State.reset = .next t) ∧ writesReg (.addReg 0 1) 2 = false ∧
    (∃ t, exec (.loadRegs 3) State.reset = .next t) ∧ writesReg (.loadRegs 3) 4 = false :=
  ⟨⟨_, rfl⟩, by decide, ⟨_, rfl⟩, by decide⟩

/-- One state per clause: `I`, the stack, SP down and up, DT, ST. -/
theorem witness_IndexStackAndTimersAreWrittenOnlyByTheirInstructions :
    writesI .cls = false ∧ (∃ t, exec .cls State.reset = .next t) ∧
    (∃ t, exec (.call 0x300) State.reset = .next t ∧ t.stack ≠ State.reset.stack ∧ t.sp ≠ State.reset.sp) ∧
    (∃ t, exec .ret { State.reset with sp := 16 } = .next t ∧ t.sp ≠ 16) ∧
    (∃ t, exec (.ldDtVx 0) (regs [(0, 5)]) = .next t ∧ t.dt ≠ (regs [(0, 5)]).dt) ∧
    (∃ t, exec (.ldStVx 0) (regs [(0, 5)]) = .next t ∧ t.st ≠ (regs [(0, 5)]).st) :=
  ⟨rfl, ⟨_, rfl⟩, ⟨_, rfl, by decide +kernel, by decide +kernel⟩, ⟨_, rfl, by decide +kernel⟩,
    ⟨_, rfl, by decide +kernel⟩, ⟨_, rfl, by decide +kernel⟩⟩

theorem witness_MemoryIsWrittenOnlyByTheTwoStores :
    (after 0xF255 { State.reset with i := 0x300 }).isSome = true ∧
    maskAddr 0x303 ∉ storedBy (.storeRegs 2) ({ State.reset with i := 0x300 }.withFetchWord 16 0xF255) := by
  decide +kernel

theorem witness_DisplayIsWrittenOnlyByClearAndDraw :
    (after 0xD015 State.reset).map (fun t => (t.fb != State.reset.fb, t.redraw)) = some (true, true) := by decide +kernel

theorem witness_KeypadAndGlyphsAreNeverWrittenByAStep : (after 0xE09E State.reset).isSome = true := by decide +kernel

theorem witness_KeypadIsReadOnlyByThreeInstructions :
    readsKeypad .cls = false ∧ ∃ t, exec .cls State.reset = .next t := ⟨rfl, ⟨_, rfl⟩⟩

theorem witness_RedrawFlagIsReadByNoInstruction : (after 0xD015 State.reset).isSome = true := by decide +kernel

theorem witness_EveryStepKeepsTheMachineInvariant :
    MachineInv (State.reset.withFetchWord 16 0x00EE) ∧ (after 0x00EE State.reset).isSome = true :=
  ⟨⟨by decide +kernel, fun f h => by cases h⟩, by decide +kernel⟩

theorem witness_HostActionsKeepTheMachineInvariant : MachineInv State.reset := ⟨rfl, fun f h => by cases h⟩

/-- A machine that was reset, and one that never was, whose run is refused. -/
theorem witness_EveryHostScheduleKeepsTheMachineInvariant :
    MachineInv State.reset ∧ State.reset.status ≠ .uninitialised ∧
    MachineInv { State.reset with status := .uninitialised } ∧
    runEvents [.host .clearRedraw, .cycle] { State.reset with status := .uninitialised } = .refused .uninitialised ∧
    (∃ t, runEvents [.host .reset, .cycle] { State.reset with status := .uninitialised } = .next t) :=
  ⟨⟨rfl, fun f h => by cases h⟩, by decide, ⟨rfl, fun f h => by cases h⟩, rfl, ⟨_, rfl⟩⟩

theorem witness_MachineRoutineCallIsAJump : (0x0E1 : Imm12) ≠ 0x0E0 ∧ (0x0E1 : Imm12) ≠ 0x0EE := by decide

theorem witness_CallPushesItsOwnAddress :
    State.reset.sp.val < 16 ∧ ({ State.reset with sp := 15 } : State).sp.val < 16 := by decide

theorem witness_ReturnGoesPastTheCall :
    0 < ({ State.reset with sp := 1 } : State).sp.val ∧ 0 < ({ State.reset with sp := 16 } : State).sp.val := by decide

theorem witness_StackFaultsHaltTheMachine :
    ({ State.reset with sp := 16 } : State).sp.val = 16 ∧ State.reset.sp.val = 0 := by decide

theorem witness_SkipsOnTwoRegisters : (0xF : Imm4) ≠ 0 := by decide

theorem witness_SkipsOnAKey : ((regs [(0, 15)]).reg 0).toNat < 16 ∧ (State.reset.reg 0).toNat < 16 := by decide +kernel

theorem witness_KeyIndexAboveFifteenHaltsTheMachine :
    15 < ((regs [(0, 16)]).reg 0).toNat ∧ 15 < ((regs [(0, 255)]).reg 0).toNat := by decide +kernel

theorem witness_AddRegistersGivesSumAndCarry : (0 : Reg) ≠ Reg.vf := by decide

theorem witness_SubtractionsReadAfterTheFlagWrite : (14 : Reg) ≠ Reg.vf := by decide

theorem witness_ShiftsPutTheBitShiftedOutInTheFlag : (0 : Reg) ≠ Reg.vf := by decide

theorem witness_RandomByteIsMaskedByTheImmediate : (0x0F : Imm8).getLsbD 4 = false := by decide

/-- Registers 0 and x are both in the block, x = 15 included; the register above x is not. -/
theorem witness_RegisterBlocks : (0 : Reg).val ≤ (15 : Reg).val ∧ (15 : Reg).val ≤ (15 : Reg).val ∧
    ¬ (1 : Reg).val ≤ (0 : Reg).val := by decide

theorem witness_TimerReadsAndWrites : State.reset.status = .running := rfl

/-- The least of two pressed keys, the lowest and the highest key alone, and no key. -/
theorem witness_KeyWaitTakesTheLeastPressedKey :
    (((State.reset.writeKey 9 true).writeKey 3 true).keyPressed 3 = true ∧
      ∀ j : Fin 16, j < 3 → ((State.reset.writeKey 9 true).writeKey 3 true).keyPressed j = false) ∧
    ((State.reset.writeKey 0 true).keyPressed 0 = true ∧
      ∀ j : Fin 16, j < 0 → (State.reset.writeKey 0 true).keyPressed j = false) ∧
    ((State.reset.writeKey 15 true).keyPressed 15 = true ∧
      ∀ j : Fin 16, j < 15 → (State.reset.writeKey 15 true).keyPressed j = false) ∧
    (∀ k : Fin 16, State.reset.keyPressed k = false) := by decide +kernel

/-- W8's memory: a call at 0x200 of a return at 0x206. -/
theorem witness_CallThenReturnResumesAfterTheCall :
    (poke [(0x200, 0x22), (0x201, 0x06), (0x207, 0xEE)] State.reset).status = .running ∧
    (poke [(0x200, 0x22), (0x201, 0x06), (0x207, 0xEE)] State.reset).sp.val < 16 ∧
    decodeWord (poke [(0x200, 0x22), (0x201, 0x06), (0x207, 0xEE)] State.reset).fetchWord = some (.call 0x206) ∧
    wordOfBytes ((poke [(0x200, 0x22), (0x201, 0x06), (0x207, 0xEE)] State.reset).memRead (0x206 : Imm12).toNat)
      ((poke [(0x200, 0x22), (0x201, 0x06), (0x207, 0xEE)] State.reset).memRead ((0x206 : Imm12).toNat + 1)) =
      0x00EE := by decide +kernel

theorem witness_StoredRegistersAreLoadedBack :
    (∃ t, exec (.storeRegs 3) State.reset = .next t) ∧ (3 : Reg).val < (4 : Reg).val := ⟨⟨_, rfl⟩, by decide⟩

theorem witness_DrawingTwiceRestoresTheScreen :
    (0 : Reg) ≠ Reg.vf ∧ (1 : Reg) ≠ Reg.vf ∧ (∃ t, exec (.drw 0 1 5) State.reset = .next t) ∧
    State.reset.fb = Framebuffer.clear := ⟨by decide, by decide, ⟨_, rfl⟩, rfl⟩

/-- `F155` at 0x200 with I = 0x202 stores V0 and V1 over the next word. -/
theorem witness_StoredCodeIsFetchedByTheNextCycle :
    (0 : Reg).val + 1 = (1 : Reg).val ∧ (1 : Reg).val ≤ (1 : Reg).val ∧
    maskAddr (({ State.reset with i := 0x202 } : State).indexAddr (0 : Reg).val) =
      maskAddr (({ State.reset with i := 0x202 } : State).pc + 2).toNat ∧
    (∃ t, exec (.storeRegs 1) { State.reset with i := 0x202 } = .next t) :=
  ⟨by decide, by decide, by decide +kernel, ⟨_, rfl⟩⟩

/-- Each address range of the statement at both of its ends. -/
theorem witness_ResetGivesTheResetValues :
    State.reset.hostReset.memRead 79 = State.reset.glyphs[79] ∧ State.reset.hostReset.memRead 80 = 0 ∧
    State.reset.hostReset.memRead 4095 = 0 := by decide +kernel

/-- Images of 3584 and 3585 bytes, and the last address below the image and the first above it. -/
theorem witness_LoaderResetsThenCopiesTheImage :
    (List.replicate 3584 (0x12 : Byte)).length ≤ 3584 ∧ 3584 < (List.replicate 3585 (0x12 : Byte)).length ∧
    (State.reset.loadRom (.bytes [0x12, 0x34])).2.memRead 512 = 0x12 ∧
    (State.reset.loadRom (.bytes [0x12, 0x34])).2.memRead 511 = 0 ∧
    (State.reset.loadRom (.bytes [0x12, 0x34])).2.memRead 514 = 0 := by
  refine ⟨?_, ?_, ?_, ?_, ?_⟩
  · rw [List.length_replicate]
  · rw [List.length_replicate]; decide
  all_goals decide +kernel

theorem witness_OnlyResetLeavesTheHaltedState :
    ({ State.reset with status := .halted ⟨.stackOverflow, 0x200, 0x2200⟩ } : State).status =
      .halted ⟨.stackOverflow, 0x200, 0x2200⟩ := rfl

theorem witness_EmptyMemoryJumpsToTheGlyphs : State.reset.glyphs[0] = 0xF0 ∧ State.reset.glyphs[1] = 0x90 := by
  decide +kernel

theorem witness_ParkedMachineChangesOnlyItsTimers :
    (State.reset.withFetchWord 16 0x1200).status = .running ∧
    decodeWord (State.reset.withFetchWord 16 0x1200).fetchWord = some (.jp 0x200) ∧
    (0x200 : Imm12).toNat = (State.reset.withFetchWord 16 0x1200).pc.toNat := by decide +kernel

end Sys2Proof.Tests
end

