-- ==== Sys2Proof/Proofs/Tone.lean ====
section
/-! The tone of a cycle (10_state.md R25): what the tone test says of the state an instruction left, and the obligation
that the tone marks the decay of ST from 1 to 0. -/

namespace Sys2Proof.Machine

/-- The tone is on exactly in a state left running, so one whose cycle decays its timers, with `ST = 1` (R25, R63). -/
theorem State.toneNow_eq_true {t : State} : t.toneNow = true ↔ t.status = .running ∧ t.st.toNat = 1 := by
  unfold State.toneNow
  cases t.status with
  | running => simp [BitVec.toNat_eq]
  | halted f => simp
  | uninitialised => simp

/-- The end of a completed cycle lowers ST by 1, and keeps it at 0 (R63). -/
theorem State.endCycle_st_toNat {t : State} (h : t.status = .running) :
    t.endCycle.st.toNat = t.st.toNat - 1 := by
  rw [State.endCycle_running h, State.decay_st, State.decayTimer_toNat]

/-- Settles O13, by the three forms of a cycle that answers: a halted machine and an illegal word run no instruction and
give no tone, and after an instruction the tone tests the very state whose ST then decays. -/
theorem toneMarksSoundTimerGoingFromOneToZero : Obligations.ToneMarksSoundTimerGoingFromOneToZero := by
  intro s c hc
  rcases cycle_cases hc with ⟨f, hs, rfl⟩ | ⟨hs, ⟨hd, rfl⟩ | ⟨i, t, hd, ht, rfl⟩⟩
  · simp [hs]
  · simp [hd]
  · constructor
    · intro tone
      obtain ⟨hrun, hst⟩ := State.toneNow_eq_true.mp tone
      exact ⟨hs, i, t, hd, ht, hrun, hst, by simp [State.endCycle_st_toNat hrun, hst]⟩
    · rintro ⟨-, j, u, hj, hu, hrun, hst, -⟩
      obtain rfl : i = j := by simpa [hd] using hj
      obtain rfl : t = u := by simpa [ht] using hu
      exact State.toneNow_eq_true.mpr ⟨hrun, hst⟩

end Sys2Proof.Machine
end

