-- ==== Sys2Proof/Proofs/OpcodeMap.lean ====
section
/-! The opcode map of R52 (30_encoding.md): what a row compares of a word, field by field, that a word meets only the rows
of its own primary opcode family, and the obligation that the decoder is that table. -/

namespace Sys2Proof

open Laws.OpcodeRowMatch

/-! ### Fields of a masked word and of a literal -/

theorem op_and (w m : Word) : Word.op (w &&& m) = Word.op w &&& Word.op m := BitVec.extractLsb'_and

theorem n_and (w m : Word) : Word.n (w &&& m) = Word.n w &&& Word.n m := BitVec.extractLsb'_and

theorem kk_and (w m : Word) : Word.kk (w &&& m) = Word.kk w &&& Word.kk m := BitVec.extractLsb'_and

@[simp] theorem op_ofNat (k : Nat) : Word.op (BitVec.ofNat 16 k) = BitVec.ofNat 4 (k / 4096) := by
  apply BitVec.eq_of_toNat_eq
  simp [Word.op, Nat.shiftRight_eq_div_pow]
  omega

@[simp] theorem n_ofNat (k : Nat) : Word.n (BitVec.ofNat 16 k) = BitVec.ofNat 4 k := by
  apply BitVec.eq_of_toNat_eq
  simp [Word.n]

@[simp] theorem kk_ofNat (k : Nat) : Word.kk (BitVec.ofNat 16 k) = BitVec.ofNat 8 k := by
  apply BitVec.eq_of_toNat_eq
  simp [Word.kk]

/-! ### What each of the four masks compares -/

theorem and_opMask (w : Word) : w &&& 0xF000#16 = Word.op w ++ 0x000#12 := by
  simpa only [encodeA_fields] using opMask_encodeA (Word.op w) (Word.nnn w)

theorem and_opNMask (w : Word) : w &&& 0xF00F#16 = Word.op w ++ (0x00#8 ++ Word.n w) := by
  simpa only [encodeXYN_fields] using opNMask_encodeXYN (Word.op w) (Word.x w) (Word.y w) (Word.n w)

theorem and_opKkMask (w : Word) : w &&& 0xF0FF#16 = Word.op w ++ (0x0#4 ++ Word.kk w) := by
  simpa only [encodeXK_fields] using opKkMask_encodeXK (Word.op w) (Word.x w) (Word.kk w)

theorem and_allOnes8 (b : BitVec 8) : b &&& 0xFF#8 = b := BitVec.and_allOnes

theorem and_wordMask (w : Word) : w &&& 0xFFFF#16 = w := BitVec.and_allOnes

theorem and_opMask_eq_iff (w p : Word) : w &&& 0xF000#16 = p ↔ p &&& 0xF000#16 = p ∧ Word.op w = Word.op p := by
  constructor
  · rintro rfl
    simp [op_and, and_allOnes4, BitVec.and_assoc]
  · rintro ⟨hp, hop⟩
    rw [and_opMask, hop, ← and_opMask, hp]

theorem and_opNMask_eq_iff (w p : Word) :
    w &&& 0xF00F#16 = p ↔ p &&& 0xF00F#16 = p ∧ Word.op w = Word.op p ∧ Word.n w = Word.n p := by
  constructor
  · rintro rfl
    simp [op_and, n_and, and_allOnes4, BitVec.and_assoc]
  · rintro ⟨hp, hop, hn⟩
    rw [and_opNMask, hop, hn, ← and_opNMask, hp]

theorem and_opKkMask_eq_iff (w p : Word) :
    w &&& 0xF0FF#16 = p ↔ p &&& 0xF0FF#16 = p ∧ Word.op w = Word.op p ∧ Word.kk w = Word.kk p := by
  constructor
  · rintro rfl
    simp [op_and, kk_and, and_allOnes4, and_allOnes8, BitVec.and_assoc]
  · rintro ⟨hp, hop, hkk⟩
    rw [and_opKkMask, hop, hkk, ← and_opKkMask, hp]

/-! ### A word meets only the rows of its own family -/

theorem op_mask_of_mem_opcodeMap : ∀ r ∈ opcodeMap, Word.op r.mask = 0xF := by decide

/-- Every row compares all four bits of the family, so a matching word is of the row's own family. -/
theorem op_pattern_of_matches {r : OpcodeRow} {w : Word} (hr : r ∈ opcodeMap) (hm : r.matches w = true) :
    Word.op r.pattern = Word.op w := by
  rw [← eq_of_beq hm, op_and, op_mask_of_mem_opcodeMap r hr]
  exact and_allOnes4 (Word.op w)

/-- The rows of one primary opcode family, in the order of the table. -/
def familyRows (op : BitVec 4) : List OpcodeRow := opcodeMap.filter (Word.op ·.pattern == op)

/-- The table read top to bottom, but only the rows of one family. -/
def decodeByFamilyRows (op : BitVec 4) (w : Word) : Option Instr :=
  ((familyRows op).find? (·.matches w)).map (·.build w)

theorem decodeByMap_eq_decodeByFamilyRows (w : Word) : decodeByMap w = decodeByFamilyRows (Word.op w) w := by
  unfold decodeByMap decodeByFamilyRows familyRows
  rw [List.find?_filter]
  congr 1
  refine List.find?_congr fun r hr => ?_
  cases hm : r.matches w with
  | false => simp
  | true => simp [op_pattern_of_matches hr hm]

/-! ### The rows of each family, and the decoder of that family -/

theorem decodeByFamilyRows_0 {w : Word} (h : Word.op w = 0x0#4) :
    decodeByFamilyRows 0x0#4 w = some (decodeFamily0 w) := by
  unfold decodeByFamilyRows decodeFamily0
  rw [show familyRows 0x0#4 = opcodeRowsLow.take 3 from rfl]
  split_ifs <;> simp_all [opcodeRowsLow, OpcodeRow.matches, and_wordMask, and_opMask_eq_iff]

theorem decodeByFamilyRows_8 {w : Word} (h : Word.op w = 0x8#4) : decodeByFamilyRows 0x8#4 w = decodeFamily8 w := by
  unfold decodeByFamilyRows decodeFamily8
  rw [show familyRows 0x8#4 = opcodeRowsMid.take 9 from rfl]
  split <;> simp_all [opcodeRowsMid, OpcodeRow.matches, and_opNMask_eq_iff]

theorem decodeByFamilyRows_E {w : Word} (h : Word.op w = 0xE#4) : decodeByFamilyRows 0xE#4 w = decodeFamilyE w := by
  unfold decodeByFamilyRows decodeFamilyE
  rw [show familyRows 0xE#4 = (opcodeRowsHigh.drop 4).take 2 from rfl]
  split <;> simp_all [opcodeRowsHigh, OpcodeRow.matches, and_opKkMask_eq_iff]

theorem decodeByFamilyRows_F {w : Word} (h : Word.op w = 0xF#4) : decodeByFamilyRows 0xF#4 w = decodeFamilyF w := by
  unfold decodeByFamilyRows decodeFamilyF
  rw [show familyRows 0xF#4 = opcodeRowsHigh.drop 6 from rfl]
  split <;> simp_all [opcodeRowsHigh, OpcodeRow.matches, and_opKkMask_eq_iff]

/-- A family of one row that compares the family alone (R52). -/
theorem decodeByFamilyRows_single {w p : Word} {op : BitVec 4} {f : Word → Instr} (h : Word.op w = op)
    (hrow : familyRows op = [⟨p, 0xF000, f⟩]) (hp : p &&& 0xF000#16 = p) (hop : Word.op p = op) :
    decodeByFamilyRows op w = some (f w) := by
  simp [decodeByFamilyRows, hrow, OpcodeRow.matches, and_opMask_eq_iff, h, hp, hop]

/-- A family of one row that compares the low nibble too, with 0 (R52, R53). -/
theorem decodeByFamilyRows_strict {w p : Word} {op : BitVec 4} {f : Word → Instr} (h : Word.op w = op)
    (hrow : familyRows op = [⟨p, 0xF00F, f⟩]) (hp : p &&& 0xF00F#16 = p) (hop : Word.op p = op) (hn : Word.n p = 0#4) :
    decodeByFamilyRows op w = if Word.n w = 0#4 then some (f w) else none := by
  split_ifs with hw <;> simp [decodeByFamilyRows, hrow, OpcodeRow.matches, and_opNMask_eq_iff, h, hp, hop, hn, hw]

theorem decodeWord_eq_decodeByFamilyRows (w : Word) : decodeWord w = decodeByFamilyRows (Word.op w) w := by
  unfold decodeWord
  split
  case h_1 h => rw [h, decodeByFamilyRows_0 h]
  case h_9 h => rw [h, decodeByFamilyRows_8 h]
  case h_15 h => rw [h, decodeByFamilyRows_E h]
  case h_16 h => rw [h, decodeByFamilyRows_F h]
  case h_6 h => rw [h, decodeByFamilyRows_strict h rfl rfl rfl rfl]
  case h_10 h => rw [h, decodeByFamilyRows_strict h rfl rfl rfl rfl]
  -- no seventeenth family
  case h_17 =>
    simp only [imp_false] at *
    bv_omega
  all_goals
    rename_i h
    rw [h, decodeByFamilyRows_single h rfl rfl rfl]

/-! ### Two rows of one family have no word in common -/

theorem and_mask_eq_of_matches {r q : OpcodeRow} {w : Word} (hr : r.matches w = true) (hq : q.matches w = true) :
    r.pattern &&& q.mask = q.pattern &&& r.mask := by
  rw [← eq_of_beq hr, ← eq_of_beq hq, BitVec.and_assoc, BitVec.and_assoc, BitVec.and_comm q.mask]

/-- Outside family 0, any two rows ask for different values of a bit that both compare. -/
theorem opcodeMap_pairwise_conflict : opcodeMap.Pairwise
    (fun r q => Word.op r.pattern = 0 ∨ r.pattern &&& q.mask ≠ q.pattern &&& r.mask) := by decide

theorem filter_length_le_one {α : Type} {l : List α} {p : α → Bool}
    (h : l.Pairwise (fun a b => ¬ (p a = true ∧ p b = true))) : (l.filter p).length ≤ 1 := by
  have hf := h.filter p
  have hp : ∀ a ∈ l.filter p, p a = true := fun a ha => (List.mem_filter.mp ha).2
  generalize l.filter p = m at hf hp
  match m with
  | [] | [_] => simp
  | a :: b :: _ => exact absurd ⟨hp a (by simp), hp b (by simp)⟩ ((List.pairwise_cons.mp hf).1 b (by simp))

theorem matching_rows_length_le_one {w : Word} (hw : Word.op w ≠ 0) :
    (opcodeMap.filter (·.matches w)).length ≤ 1 := by
  refine filter_length_le_one (opcodeMap_pairwise_conflict.imp_of_mem ?_)
  rintro r q hr - (h0 | hne) ⟨hmr, hmq⟩
  · exact hw ((op_pattern_of_matches hr hmr).symm.trans h0)
  · exact hne (and_mask_eq_of_matches hmr hmq)

/-- Settles O3, family by family: a word meets only the rows of its own family, where the table is the family's decoder,
and any two rows outside family 0 disagree on a bit that both compare. -/
theorem decoderFollowsTheOpcodeMap : Obligations.DecoderFollowsTheOpcodeMap :=
  ⟨fun w => (decodeWord_eq_decodeByFamilyRows w).trans (decodeByMap_eq_decodeByFamilyRows w).symm, rfl,
    fun _ hw => matching_rows_length_le_one hw⟩

end Sys2Proof
end

