-- ==== Sys2Proof/Proofs/EngineCycle.lean ====
section
/-! The cycle of 40_engine_cycle.md: the value of the word it fetches (R61), what state a faulting instruction leaves
(R65), and what the decay that ends a completed cycle changes (R63), with their two obligations. -/

namespace Sys2Proof.Machine

/-! ### The fetched word -/

/-- A word's value from its two bytes, the high one first (20_memory.md R37). -/
theorem wordOfBytes_toNat (hi lo : Byte) : (wordOfBytes hi lo).toNat = hi.toNat * 256 + lo.toNat := by
  have disjoint : hi.toNat <<< 8 + lo.toNat = hi.toNat <<< 8 ||| lo.toNat := Nat.shiftLeft_add_eq_or_of_lt lo.isLt _
  rw [wordOfBytes, BitVec.toNat_append, ← disjoint, Nat.shiftLeft_eq]

/-- Settles O8: the word's value from its bytes, and a read masks its own address (R35). -/
theorem fetchReadsTheBigEndianWordAtPc : Obligations.FetchReadsTheBigEndianWordAtPc := by
  intro s
  have masked (a : Nat) : s.memRead (a % 4096) = s.memRead a := s.memRead_maskAddr a
  rw [State.fetchWord, wordOfBytes_toNat, masked, masked]

/-! ### The outcome of a cycle, and what a fault leaves -/

/-- The outcome is a fault exactly where the instruction left the machine halted, and it is that fault (R59). -/
theorem outcomeOf_eq_fault {i : Instr} {s t : State} {f : FaultRecord} :
    outcomeOf i s t = .fault f ↔ t.status = .halted f := by
  unfold outcomeOf
  cases t.status with
  | halted g => simp
  | running => cases waitsForKey i s <;> simp
  | uninitialised => cases waitsForKey i s <;> simp

/-- An instruction that halts a running machine did nothing but take a fault (R65). -/
theorem exec_halted {i : Instr} {s t : State} {f : FaultRecord} (hs : s.status = .running) (h : exec i s = .next t)
    (ht : t.status = .halted f) : ∃ k, t = s.raiseFault k := by
  refine (exec_status h).resolve_left fun same => ?_
  simp [ht, hs] at same

/-- No fault gives a tone (R65). -/
theorem State.toneNow_halted {t : State} {f : FaultRecord} (h : t.status = .halted f) : t.toneNow = false := by
  rw [State.toneNow, h]

/-- A cycle whose outcome is a fault has no tone, and its next state is the old one, whose fault a halted machine
repeats (R66), or the old one with a fault taken (R65). -/
theorem cycle_fault {s : State} {c : CycleResult} {f : FaultRecord} (h : cycle s = .next c)
    (hf : c.outcome = .fault f) : c.tone = false ∧ (c.state = s ∨ ∃ k, c.state = s.raiseFault k) := by
  rcases cycle_cases h with ⟨g, -, rfl⟩ | ⟨hs, ⟨-, rfl⟩ | ⟨i, t, -, ht, rfl⟩⟩
  · exact ⟨rfl, .inl rfl⟩
  · exact ⟨rfl, .inr ⟨_, rfl⟩⟩
  · have halted : t.status = .halted f := outcomeOf_eq_fault.mp hf
    refine ⟨State.toneNow_halted halted, .inr ?_⟩
    rw [State.endCycle_halted halted]
    exact exec_halted hs ht halted

/-! ### The decay -/

/-- The decay writes the two timers and nothing else (R63). -/
theorem State.decay_frame (s : State) : Frame { dt := true, st := true } s s.decay := by
  simp [Frame]

/-- Settles O12: a completed cycle ends with the decay of the state that the instruction left, and a cycle that faults
leaves the old state but for the status. -/
theorem completedCycleDecaysBothTimers : Obligations.CompletedCycleDecaysBothTimers := by
  constructor
  · intro s u i hs hd hu hrun
    refine ⟨_, cycle_decoded hs hd hu, ?_⟩
    simp only [State.endCycle_running hrun]
    exact ⟨State.decayTimer_toNat u.dt, State.decayTimer_toNat u.st, by simp [State.toneNow_eq_true, hrun], rfl,
      u.decay_frame⟩
  · intro s c f h hf
    obtain ⟨quiet, same | ⟨k, taken⟩⟩ := cycle_fault h hf
    · simp [quiet, same]
    · simp [quiet, taken]

end Sys2Proof.Machine
end

