-- ==== Sys2Proof/Proofs/ControlTransfer.lean ====
section
/-! Jumps (41_control_transfer.md): what a write of `pc` leaves unchanged and where it makes the machine fetch, the
value of a jump's target, and the obligations on `1nnn` (R71) and `Bnnn` (R73). -/

namespace Sys2Proof.Machine

/-! ### A write of `pc` -/

/-- A write of `pc` changes nothing else. -/
theorem State.setPc_frame (s : State) (t : Word) : Frame {} s (s.setPc t) := by
  simp [Frame]

/-- After a write of `pc` the machine fetches at the new value, from the memory it had (R61). -/
theorem State.setPc_fetchWord (s : State) (t : Word) :
    (s.setPc t).fetchWord = wordOfBytes (s.memRead (t.toNat % 4096)) (s.memRead ((t.toNat + 1) % 4096)) := by
  have masked (a : Nat) : s.memRead (a % 4096) = s.memRead a := s.memRead_maskAddr a
  rw [masked, masked, fetchWord, setPc_pc, setPc_memRead, setPc_memRead]

/-! ### The target of a jump -/

/-- An address immediate keeps its value as a word (R50). -/
@[simp] theorem zextAddr_toNat (nnn : Imm12) : (zextAddr nnn).toNat = nnn.toNat :=
  BitVec.toNat_setWidth_of_le (by decide)

/-- A byte keeps its value as a term of a 16-bit sum. -/
@[simp] theorem zextByte_toNat (b : Byte) : (zextByte b).toNat = b.toNat :=
  BitVec.toNat_setWidth_of_le (by decide)

/-- The sum of an address immediate and a byte is below 65536, so the 16-bit sum is exact (R73). -/
theorem zextAddr_add_zextByte_toNat (nnn : Imm12) (b : Byte) :
    (zextAddr nnn + zextByte b).toNat = nnn.toNat + b.toNat := by
  have hn : nnn.toNat < 4096 := nnn.isLt
  have hb : b.toNat < 256 := b.isLt
  rw [BitVec.toNat_add, zextAddr_toNat, zextByte_toNat]
  omega

/-! ### The two jumps -/

theorem decodeWord_encode_jp (nnn : Imm12) : decodeWord (encode (.jp nnn)) = some (.jp nnn) := by
  simp [encode, decodeWord]

theorem decodeWord_encode_jpV0 (nnn : Imm12) : decodeWord (encode (.jpV0 nnn)) = some (.jpV0 nnn) := by
  simp [encode, decodeWord]

theorem exec_jp (nnn : Imm12) (s : State) : exec (.jp nnn) s = .next (s.setPc (zextAddr nnn)) := rfl

theorem exec_jpV0 (nnn : Imm12) (s : State) :
    exec (.jpV0 nnn) s = .next (s.setPc (zextAddr nnn + zextByte (s.reg 0))) := rfl

/-- Settles O25: the word is `encode (.jp nnn)`, and the jump is one write of `pc`, whose frame is empty. -/
theorem jumpGoesToItsAddress : Obligations.JumpGoesToItsAddress := by
  intro nnn s
  exact ⟨decodeWord_encode_jp nnn, _, exec_jp nnn s, zextAddr_toNat nnn, s.setPc_frame _⟩

/-- Settles O30: the 16-bit sum written to `pc` is exact, so `pc` holds it unmasked, and only the fetch there reduces it
mod 4096. -/
theorem jumpWithOffsetAddsRegisterZero : Obligations.JumpWithOffsetAddsRegisterZero := by
  intro nnn s
  have target := zextAddr_add_zextByte_toNat nnn (s.reg 0)
  refine ⟨decodeWord_encode_jpV0 nnn, _, exec_jpV0 nnn s, target, ?_, s.setPc_frame _⟩
  rw [State.setPc_fetchWord, target]

end Sys2Proof.Machine
end

