-- ==== Sys2Proof/Proofs/ConditionalSkip.lean ====
section
/-! Conditional skips (42_conditional_skip.md): what a skip leaves unchanged and the value of its `pc`, the strict
decoding of families 5 and 9, and the obligations on `3xkk`, `4xkk` (R75, R76) and `5xy0`, `9xy0` (R77, R78). -/

namespace Sys2Proof.Machine

/-! ### A skip -/

/-- A skip is one write of `pc`, so it changes nothing else. -/
theorem State.skipIf_frame (s : State) (c : Bool) : Frame {} s (s.skipIf c) :=
  s.setPc_frame _

/-- The new `pc` as a number, with the test `c` of the model read as the proposition `p` of the rule. -/
theorem State.skipIf_pc_toNat (s : State) {c : Bool} {p : Prop} [Decidable p] (h : c = true ↔ p) :
    (s.skipIf c).pc.toNat = (s.pc.toNat + if p then 4 else 2) % 65536 := by
  simp only [State.skipIf_pc, BitVec.toNat_add, h]
  split <;> rfl

/-- What an instruction does that is a skip where `p` holds: its frame is empty and its `pc` is 4 or 2 further. -/
theorem exec_skip {i : Instr} {s : State} {c : Bool} {p : Prop} [Decidable p] (hexec : exec i s = .next (s.skipIf c))
    (h : c = true ↔ p) : ∃ t : State, exec i s = .next t ∧ Frame {} s t ∧
      t.pc.toNat = (s.pc.toNat + if p then 4 else 2) % 65536 :=
  ⟨_, hexec, s.skipIf_frame c, s.skipIf_pc_toNat h⟩

/-! ### The four instructions -/

theorem decodeWord_encode_seImm (x : Reg) (kk : Imm8) : decodeWord (encode (.seImm x kk)) = some (.seImm x kk) := by
  simp [encode, decodeWord]

theorem decodeWord_encode_sneImm (x : Reg) (kk : Imm8) :
    decodeWord (encode (.sneImm x kk)) = some (.sneImm x kk) := by
  simp [encode, decodeWord]

/-- Family 5 asks for a zero low nibble (R53). -/
theorem decodeWord_encodeXYN_5 (x y : Reg) (n : Imm4) :
    decodeWord (encodeXYN 0x5 x y n) = if n = 0 then some (.seReg x y) else none := by
  simp [decodeWord]

/-- Family 9 asks for a zero low nibble (R53). -/
theorem decodeWord_encodeXYN_9 (x y : Reg) (n : Imm4) :
    decodeWord (encodeXYN 0x9 x y n) = if n = 0 then some (.sneReg x y) else none := by
  simp [decodeWord]

theorem exec_seImm (x : Reg) (kk : Imm8) (s : State) :
    exec (.seImm x kk) s = .next (s.skipIf (s.reg x == kk)) := rfl

theorem exec_sneImm (x : Reg) (kk : Imm8) (s : State) :
    exec (.sneImm x kk) s = .next (s.skipIf (s.reg x != kk)) := rfl

theorem exec_seReg (x y : Reg) (s : State) :
    exec (.seReg x y) s = .next (s.skipIf (s.reg x == s.reg y)) := rfl

theorem exec_sneReg (x y : Reg) (s : State) :
    exec (.sneReg x y) s = .next (s.skipIf (s.reg x != s.reg y)) := rfl

/-- Settles O31: the words are `encode (.seImm x kk)` and `encode (.sneImm x kk)`, and each instruction is a skip on
its comparison. -/
theorem skipsOnAnImmediate : Obligations.SkipsOnAnImmediate := by
  intro x kk s
  exact ⟨decodeWord_encode_seImm x kk, decodeWord_encode_sneImm x kk,
    exec_skip (exec_seImm x kk s) beq_iff_eq, exec_skip (exec_sneImm x kk s) bne_iff_ne⟩

/-- Settles O32: families 5 and 9 decode by their low nibble alone, and each instruction is a skip on its
comparison. -/
theorem skipsOnTwoRegisters : Obligations.SkipsOnTwoRegisters := by
  intro x y s
  refine ⟨decodeWord_encodeXYN_5 x y 0, decodeWord_encodeXYN_9 x y 0, fun n hn => ⟨?_, ?_⟩,
    exec_skip (exec_seReg x y s) beq_iff_eq, exec_skip (exec_sneReg x y s) bne_iff_ne⟩
  · exact (decodeWord_encodeXYN_5 x y n).trans (if_neg hn)
  · exact (decodeWord_encodeXYN_9 x y n).trans (if_neg hn)

end Sys2Proof.Machine
end

