-- ==== Sys2Proof/Proofs/RegisterAlu.lean ====
section
/-! Register loads and the ALU (43_register_alu.md): what an instruction does that writes one register and goes on to
the next word, the encodings, and the obligations on `6xkk`, `7xkk` (R81, R82) and `8xy0` to `8xy3` (R83 to R86), none
of which writes a flag. -/

namespace Sys2Proof.Machine

/-! ### A write of one register, then the next word -/

theorem State.setReg_advance_reg (s : State) (x : Reg) (b : Byte) : (s.setReg x b).advance.reg x = b := by
  simp

/-- Nothing else changes, VF included where `x` is another register (R12). -/
theorem State.setReg_advance_frame (s : State) (x : Reg) (b : Byte) :
    Frame { regs := [x] } s (s.setReg x b).advance := by
  have otherRegs (r : Reg) (hr : r ∉ [x]) : (s.setReg x b).advance.reg r = s.reg r := by
    rw [State.advance_reg, State.setReg_reg, if_neg (List.ne_of_not_mem_cons hr)]
  exact ⟨otherRegs, by simp⟩

/-! ### The encodings -/

theorem decodeWord_encode_ldImm (x : Reg) (kk : Imm8) : decodeWord (encode (.ldImm x kk)) = some (.ldImm x kk) := by
  simp [encode, decodeWord]

theorem decodeWord_encode_addImm (x : Reg) (kk : Imm8) :
    decodeWord (encode (.addImm x kk)) = some (.addImm x kk) := by
  simp [encode, decodeWord]

theorem decodeWord_encode_ldReg (x y : Reg) : decodeWord (encode (.ldReg x y)) = some (.ldReg x y) := by
  simp [encode, decodeWord, decodeFamily8]

theorem decodeWord_encode_orReg (x y : Reg) : decodeWord (encode (.orReg x y)) = some (.orReg x y) := by
  simp [encode, decodeWord, decodeFamily8]

theorem decodeWord_encode_andReg (x y : Reg) : decodeWord (encode (.andReg x y)) = some (.andReg x y) := by
  simp [encode, decodeWord, decodeFamily8]

theorem decodeWord_encode_xorReg (x y : Reg) : decodeWord (encode (.xorReg x y)) = some (.xorReg x y) := by
  simp [encode, decodeWord, decodeFamily8]

/-! ### The six instructions -/

theorem exec_ldImm (x : Reg) (kk : Imm8) (s : State) :
    exec (.ldImm x kk) s = .next (s.setReg x kk).advance := rfl

theorem exec_addImm (x : Reg) (kk : Imm8) (s : State) :
    exec (.addImm x kk) s = .next (s.setReg x (s.reg x + kk)).advance := rfl

theorem exec_ldReg (x y : Reg) (s : State) : exec (.ldReg x y) s = .next (s.setReg x (s.reg y)).advance := rfl

theorem exec_orReg (x y : Reg) (s : State) :
    exec (.orReg x y) s = .next (s.setReg x (s.reg x ||| s.reg y)).advance := rfl

theorem exec_andReg (x y : Reg) (s : State) :
    exec (.andReg x y) s = .next (s.setReg x (s.reg x &&& s.reg y)).advance := rfl

theorem exec_xorReg (x y : Reg) (s : State) :
    exec (.xorReg x y) s = .next (s.setReg x (s.reg x ^^^ s.reg y)).advance := rfl

/-- What an instruction does that writes `b` to `V[x]` and goes on to the next word, with the written value described by
the property `P` of the rule. -/
theorem exec_writesReg {i : Instr} {s : State} {x : Reg} {b : Byte} (P : Byte → Prop)
    (hexec : exec i s = .next (s.setReg x b).advance) (hb : P b) :
    ∃ t : State, exec i s = .next t ∧ P (t.reg x) ∧ t.pc = s.pc + 2 ∧ Frame { regs := [x] } s t :=
  ⟨_, hexec, (s.setReg_advance_reg x b).symm ▸ hb, rfl, s.setReg_advance_frame x b⟩

/-- A bitwise operation on two registers: `op` on the operands' bits gives each bit of the new `V[x]`, also where `x`
and `y` are one register (R84 to R86). -/
theorem exec_bitwise {i : Instr} {s : State} {x y : Reg} {b : Byte} {op : Bool → Bool → Bool}
    (hexec : exec i s = .next (s.setReg x b).advance)
    (hbits : ∀ k, b.getLsbD k = op ((s.reg x).getLsbD k) ((s.reg y).getLsbD k)) :
    ∃ t : State, exec i s = .next t ∧
      (∀ k : Nat, (t.reg x).getLsbD k = op ((s.reg x).getLsbD k) ((s.reg y).getLsbD k)) ∧
      t.pc = s.pc + 2 ∧ Frame { regs := [x] } s t :=
  exec_writesReg (fun b => ∀ k, b.getLsbD k = op ((s.reg x).getLsbD k) ((s.reg y).getLsbD k)) hexec hbits

/-- Settles O35: the words are `encode (.ldImm x kk)` and `encode (.addImm x kk)`, and each instruction is one register
write; the 8-bit sum is the sum mod 256. -/
theorem immediateLoadAndAddWriteTheRegister : Obligations.ImmediateLoadAndAddWriteTheRegister := by
  intro x kk s
  exact ⟨decodeWord_encode_ldImm x kk, decodeWord_encode_addImm x kk,
    exec_writesReg (· = kk) (exec_ldImm x kk s) rfl,
    exec_writesReg (·.toNat = ((s.reg x).toNat + kk.toNat) % 256) (exec_addImm x kk s) (BitVec.toNat_add _ _)⟩

/-- Settles O36: the words are the encodings of family 8 with low nibbles 0 to 3, and each instruction is one register
write; bit `k` of a bitwise operation is the operation on the operands' bits `k`. -/
theorem copyAndBitwiseOperationsWriteTheRegister : Obligations.CopyAndBitwiseOperationsWriteTheRegister := by
  intro x y s
  exact ⟨decodeWord_encode_ldReg x y, decodeWord_encode_orReg x y, decodeWord_encode_andReg x y,
    decodeWord_encode_xorReg x y,
    exec_writesReg (· = s.reg y) (exec_ldReg x y s) rfl,
    exec_bitwise (exec_orReg x y s) fun _ => BitVec.getLsbD_or,
    exec_bitwise (exec_andReg x y s) fun _ => BitVec.getLsbD_and,
    exec_bitwise (exec_xorReg x y s) fun _ => BitVec.getLsbD_xor⟩

end Sys2Proof.Machine
end

