-- ==== Sys2Proof/Proofs/IndexMemory.lean ====
section
/-! The index register and the memory transfers (44_index_memory.md): that a write which a frame names stays within it,
where the addresses from `I` upward lie, what the block moves leave, and the obligations on `Annn`, `Fx1E`, `Fx29`
(R94 to R96), `Fx33` (R97), `Fx55` (R98) and `Fx65` (R99). -/

namespace Sys2Proof.Machine

/-! ### Writes that a frame names -/

theorem Frame.refl (c : Changes) (s : State) : Frame c s s := by
  simp [Frame]

/-- No frame names `pc`, so going on to the next word is within every one. -/
theorem Frame.advance {c : Changes} {s t : State} (h : Frame c s t) : Frame c s t.advance := h

theorem Frame.setI {c : Changes} {s t : State} {a : Word} (h : Frame c s t) (named : c.i = true) :
    Frame c s (t.setI a) := by
  obtain ⟨regs, -, rest⟩ := h
  exact ⟨regs, by simp [named], rest⟩

theorem Frame.setReg {c : Changes} {s t : State} {x : Reg} {b : Byte} (h : Frame c s t) (named : x ∈ c.regs) :
    Frame c s (t.setReg x b) := by
  obtain ⟨regs, rest⟩ := h
  refine ⟨fun r hr => ?_, rest⟩
  rw [State.setReg_reg, if_neg (ne_of_mem_of_not_mem named hr).symm, regs r hr]

theorem Frame.memWrite {c : Changes} {s t : State} {a : Nat} {b : Byte} (h : Frame c s t)
    (named : maskAddr a ∈ c.mem) : Frame c s (t.memWrite a b) := by
  obtain ⟨regs, i, slots, sp, dt, st, mem, rest⟩ := h
  refine ⟨regs, i, slots, sp, dt, st, fun q hq => ?_, rest⟩
  rw [State.memWrite_memRead, if_neg (ne_of_mem_of_not_mem named hq), mem q hq]

/-- A block store is within every frame that names its addresses. -/
theorem State.storeBlock_frame {c : Changes} {s : State} {n : Nat}
    (named : ∀ k < n, maskAddr (s.indexAddr k) ∈ c.mem) : Frame c s (s.storeBlock n) := by
  induction n with
  | zero => exact Frame.refl c s
  | succ k ih => exact (ih fun j hj => named j (by omega)).memWrite (named k (by omega))

/-- A block load is within every frame that names its registers. -/
theorem State.loadBlock_frame {c : Changes} {s : State} {n : Nat} (named : ∀ k < n, Fin.ofNat 16 k ∈ c.regs) :
    Frame c s (s.loadBlock n) := by
  induction n with
  | zero => exact Frame.refl c s
  | succ k ih => exact (ih fun j hj => named j (by omega)).setReg (named k (by omega))

/-! ### The addresses from `I` upward -/

/-- Offsets below 4096 give the same masked address only where they are equal (R35). -/
theorem maskAddr_indexAddr_eq_iff (s : State) {j k : Nat} (hj : j < 4096) (hk : k < 4096) :
    maskAddr (s.indexAddr j) = maskAddr (s.indexAddr k) ↔ j = k := by
  simp only [maskAddr, State.indexAddr, Config.memSize]
  omega

theorem maskAddr_indexAddr_mem_storedAddrs (s : State) {k n : Nat} (hk : k < n) :
    maskAddr (s.indexAddr k) ∈ storedAddrs s n :=
  List.mem_map_of_mem (List.mem_range.mpr hk)

/-! ### The block moves -/

@[simp] theorem State.storeBlock_i (s : State) (n : Nat) : (s.storeBlock n).i = s.i := by
  rw [storeBlock_eq]

@[simp] theorem State.storeBlock_pc (s : State) (n : Nat) : (s.storeBlock n).pc = s.pc := by
  rw [storeBlock_eq]

@[simp] theorem State.loadBlock_i (s : State) (n : Nat) : (s.loadBlock n).i = s.i := by
  rw [loadBlock_eq]

@[simp] theorem State.loadBlock_pc (s : State) (n : Nat) : (s.loadBlock n).pc = s.pc := by
  rw [loadBlock_eq]

/-- A stored register stands at its own offset from `I`: no other of at most 16 writes reaches that address. -/
theorem State.storeBlock_memRead_indexAddr (s : State) {n : Nat} {r : Reg} (hn : n ≤ 16) (hr : r.val < n) :
    (s.storeBlock n).memRead (s.indexAddr r.val) = s.reg r := by
  have lastWrite : (List.range n).find?
      (fun k => maskAddr (s.indexAddr k) == maskAddr (s.indexAddr r.val)) = some r.val := by
    refine List.find?_range_eq_some.mpr ⟨by simp, List.mem_range.mpr hr, fun j hj => ?_⟩
    have apart := (maskAddr_indexAddr_eq_iff s (j := j) (k := r.val) (by omega) (by omega)).not.mpr (by omega)
    simpa using apart
  rw [s.storeBlock_memRead n _ hn, lastWrite]
  simp

/-- The post-increment of a block move, as a number (R98, R99). -/
theorem State.bumpI_i_toNat (s : State) (x : Reg) : (s.bumpI x).i.toNat = (s.i.toNat + x.val + 1) % 65536 := by
  rw [State.bumpI_i, BitVec.toNat_add, BitVec.toNat_ofNat]
  omega

/-! ### The values written -/

/-- The product of a byte and the glyph stride is below 65536, so the 16-bit product is exact (R96). -/
theorem zextByte_mul_glyphStride_toNat (b : Byte) :
    (zextByte b * BitVec.ofNat 16 Config.glyphStride).toNat = b.toNat * 5 := by
  rw [BitVec.toNat_mul, zextByte_toNat, BitVec.toNat_ofNat, Config.glyphStride]
  omega

theorem hundreds_toNat (v : Byte) : (hundreds v).toNat = v.toNat / 100 := by
  rw [hundreds, BitVec.toNat_ofNat]
  omega

theorem tens_toNat (v : Byte) : (tens v).toNat = v.toNat / 10 % 10 := by
  rw [tens, BitVec.toNat_ofNat]
  omega

theorem units_toNat (v : Byte) : (units v).toNat = v.toNat % 10 := by
  rw [units, BitVec.toNat_ofNat]
  omega

/-! ### The encodings -/

theorem decodeWord_encode_ldI (nnn : Imm12) : decodeWord (encode (.ldI nnn)) = some (.ldI nnn) := by
  simp [encode, decodeWord]

theorem decodeWord_encode_addI (x : Reg) : decodeWord (encode (.addI x)) = some (.addI x) := by
  simp [encode, decodeWord, decodeFamilyF]

theorem decodeWord_encode_ldF (x : Reg) : decodeWord (encode (.ldF x)) = some (.ldF x) := by
  simp [encode, decodeWord, decodeFamilyF]

theorem decodeWord_encode_ldB (x : Reg) : decodeWord (encode (.ldB x)) = some (.ldB x) := by
  simp [encode, decodeWord, decodeFamilyF]

theorem decodeWord_encode_storeRegs (x : Reg) : decodeWord (encode (.storeRegs x)) = some (.storeRegs x) := by
  simp [encode, decodeWord, decodeFamilyF]

theorem decodeWord_encode_loadRegs (x : Reg) : decodeWord (encode (.loadRegs x)) = some (.loadRegs x) := by
  simp [encode, decodeWord, decodeFamilyF]

/-! ### The six instructions -/

theorem exec_ldI (nnn : Imm12) (s : State) : exec (.ldI nnn) s = .next (s.setI (zextAddr nnn)).advance := rfl

theorem exec_addI (x : Reg) (s : State) :
    exec (.addI x) s = .next (s.setI (s.i + zextByte (s.reg x))).advance := rfl

theorem exec_ldF (x : Reg) (s : State) :
    exec (.ldF x) s = .next (s.setI (zextByte (s.reg x) * BitVec.ofNat 16 Config.glyphStride)).advance := rfl

theorem exec_ldB (x : Reg) (s : State) :
    exec (.ldB x) s = .next (((s.memWrite (s.indexAddr 0) (hundreds (s.reg x))).memWrite (s.indexAddr 1)
      (tens (s.reg x))).memWrite (s.indexAddr 2) (units (s.reg x))).advance := rfl

theorem exec_storeRegs (x : Reg) (s : State) :
    exec (.storeRegs x) s = .next ((s.storeBlock (x.val + 1)).bumpI x).advance := rfl

theorem exec_loadRegs (x : Reg) (s : State) :
    exec (.loadRegs x) s = .next ((s.loadBlock (x.val + 1)).bumpI x).advance := rfl

/-- What an instruction does that writes `a`, whose value is `m`, to `I` and goes on to the next word. -/
theorem exec_writesI {i : Instr} {s : State} {a : Word} {m : Nat} (hexec : exec i s = .next (s.setI a).advance)
    (ha : a.toNat = m) :
    ∃ t : State, exec i s = .next t ∧ t.i.toNat = m ∧ t.pc = s.pc + 2 ∧ Frame { i := true } s t :=
  ⟨_, hexec, ha, rfl, ((Frame.refl _ s).setI rfl).advance⟩

/-- Settles O41: the words are the encodings of the three instructions, and each is one write of `I`; the 16-bit sum is
the sum mod 65536, and the 16-bit product is exact. -/
theorem indexRegisterLoads : Obligations.IndexRegisterLoads := by
  intro nnn x s
  have sum : (s.i + zextByte (s.reg x)).toNat = (s.i.toNat + (s.reg x).toNat) % 65536 := by
    rw [BitVec.toNat_add, zextByte_toNat]
  exact ⟨decodeWord_encode_ldI nnn, decodeWord_encode_addI x, decodeWord_encode_ldF x,
    exec_writesI (exec_ldI nnn s) (zextAddr_toNat nnn),
    exec_writesI (exec_addI x s) sum,
    exec_writesI (exec_ldF x s) (zextByte_mul_glyphStride_toNat (s.reg x))⟩

/-- Settles O42: the word is `encode (.ldB x)`; the three masked addresses differ, so no digit overwrites another, and
the three writes are to the addresses the frame names. -/
theorem decimalDigitsAreStoredAtIndex : Obligations.DecimalDigitsAreStoredAtIndex := by
  intro x s
  have address (k : Nat) (hk : k < 3) := maskAddr_indexAddr_mem_storedAddrs s hk
  refine ⟨decodeWord_encode_ldB x, _, exec_ldB x s, ?_, ?_, ?_, rfl, ?_⟩
  · simp [maskAddr_indexAddr_eq_iff, hundreds_toNat]
  · simp [maskAddr_indexAddr_eq_iff, tens_toNat]
  · simp [units_toNat]
  · exact ((((Frame.refl _ s).memWrite (address 0 (by decide))).memWrite (address 1 (by decide))).memWrite
      (address 2 (by decide))).advance

/-- Settles O43: the word is `encode (.storeRegs x)`; at most 16 registers go to as many masked addresses, all of which
the frame names, and the increment of `I` comes after. -/
theorem registerBlockIsStoredAtIndex : Obligations.RegisterBlockIsStoredAtIndex := by
  intro x s
  have stored (r : Reg) (hr : r.val ≤ x.val) := s.storeBlock_memRead_indexAddr (r := r) x.isLt (Nat.lt_succ_of_le hr)
  have named (k : Nat) (hk : k < x.val + 1) := maskAddr_indexAddr_mem_storedAddrs s hk
  refine ⟨decodeWord_encode_storeRegs x, _, exec_storeRegs x s, stored, ?_, by simp, ?_⟩
  · rw [State.advance_i, State.bumpI_i_toNat, State.storeBlock_i]
  · exact ((State.storeBlock_frame named).setI rfl).advance

/-- Settles O44: the word is `encode (.loadRegs x)`; the block's reads are all of the old state, whose `I` is from
before the increment, and its writes are to the registers the frame names. -/
theorem registerBlockIsLoadedFromIndex : Obligations.RegisterBlockIsLoadedFromIndex := by
  intro x s
  have named (k : Nat) (hk : k < x.val + 1) :
      Fin.ofNat 16 k ∈ (List.finRange 16).filter (fun r => r.val ≤ x.val) := by
    have number : (Fin.ofNat 16 k).val = k := Nat.mod_eq_of_lt (by omega)
    exact List.mem_filter.mpr ⟨List.mem_finRange _, decide_eq_true (number.trans_le (Nat.le_of_lt_succ hk))⟩
  refine ⟨decodeWord_encode_loadRegs x, _, exec_loadRegs x s, fun r => ?_, ?_, by simp, ?_⟩
  · rw [State.advance_reg, State.bumpI_reg, s.loadBlock_reg _ r x.isLt]
    simp only [Nat.lt_succ_iff]
  · rw [State.advance_i, State.bumpI_i_toNat, State.loadBlock_i]
  · exact ((State.loadBlock_frame named).setI rfl).advance

end Sys2Proof.Machine
end

section
/-! The timer instructions (45_timers_keypad.md): that a timer write which a frame names stays within it, and the
obligation on `Fx07`, `Fx15` and `Fx18` (R100, R102, R103). -/

namespace Sys2Proof.Machine

/-! ### Timer writes that a frame names, and DT at the end of a cycle -/

theorem Frame.setDT {c : Changes} {s t : State} {b : Byte} (h : Frame c s t) (named : c.dt = true) :
    Frame c s (t.setDT b) := by
  obtain ⟨regs, i, slots, sp, -, rest⟩ := h
  exact ⟨regs, i, slots, sp, by simp [named], rest⟩

theorem Frame.setST {c : Changes} {s t : State} {b : Byte} (h : Frame c s t) (named : c.st = true) :
    Frame c s (t.setST b) := by
  obtain ⟨regs, i, slots, sp, dt, -, rest⟩ := h
  exact ⟨regs, i, slots, sp, dt, by simp [named], rest⟩

/-- The end of a completed cycle lowers DT by 1, and keeps it at 0 (R63). -/
theorem State.endCycle_dt_toNat {t : State} (h : t.status = .running) :
    t.endCycle.dt.toNat = t.dt.toNat - 1 := by
  rw [State.endCycle_running h, State.decay_dt, State.decayTimer_toNat]

/-! ### The encodings -/

theorem decodeWord_encode_ldVxDt (x : Reg) : decodeWord (encode (.ldVxDt x)) = some (.ldVxDt x) := by
  simp [encode, decodeWord, decodeFamilyF]

theorem decodeWord_encode_ldDtVx (x : Reg) : decodeWord (encode (.ldDtVx x)) = some (.ldDtVx x) := by
  simp [encode, decodeWord, decodeFamilyF]

theorem decodeWord_encode_ldStVx (x : Reg) : decodeWord (encode (.ldStVx x)) = some (.ldStVx x) := by
  simp [encode, decodeWord, decodeFamilyF]

/-! ### The three instructions -/

theorem exec_ldVxDt (x : Reg) (s : State) : exec (.ldVxDt x) s = .next (s.setReg x s.dt).advance := rfl

theorem exec_ldDtVx (x : Reg) (s : State) : exec (.ldDtVx x) s = .next (s.setDT (s.reg x)).advance := rfl

theorem exec_ldStVx (x : Reg) (s : State) : exec (.ldStVx x) s = .next (s.setST (s.reg x)).advance := rfl

/-- Settles O45: the words are the encodings of the three instructions, and each is one write that leaves the status; so
in a running machine the cycle completes, and its decay and tone test are of the very state the write left. -/
theorem timerReadsAndWrites : Obligations.TimerReadsAndWrites := by
  intro x s
  refine ⟨decodeWord_encode_ldVxDt x, decodeWord_encode_ldDtVx x, decodeWord_encode_ldStVx x, ?_, ?_, ?_⟩
  · exact ⟨_, exec_ldVxDt x s, s.setReg_advance_reg x s.dt, rfl, s.setReg_advance_frame x s.dt,
      fun running => State.endCycle_dt_toNat running⟩
  · exact ⟨_, exec_ldDtVx x s, rfl, rfl, ((Frame.refl _ s).setDT rfl).advance,
      fun running => State.endCycle_dt_toNat running⟩
  · exact ⟨_, exec_ldStVx x s, rfl, rfl, ((Frame.refl _ s).setST rfl).advance, fun running =>
      ⟨State.endCycle_st_toNat running, State.toneNow_eq_true.trans (and_iff_right running)⟩⟩

end Sys2Proof.Machine
end

