-- ==== Sys2Proof/Proofs/Codec.lean ====
section
/-! Decoding and encoding (30_encoding.md): the two bytes of a well-formed instruction decode to it, a word that decodes
is the encoding of what it decodes to, the words of R53's five groups are those that decode to nothing, and the word the
host places is the word fetched. -/

namespace Sys2Proof

/-! ### From the instruction to the word and back -/

theorem encodeA_injective (op : BitVec 4) {a b : Imm12} (h : encodeA op a = encodeA op b) : a = b := by
  simpa using congrArg Word.nnn h

/-- A word of family 0 other than the two exact patterns is `SYS nnn` (R52). -/
theorem decodeWord_encode_sys {nnn : Imm12} (hcls : nnn ≠ 0x0E0#12) (hret : nnn ≠ 0x0EE#12) :
    decodeWord (encode (.sys nnn)) = some (.sys nnn) := by
  have notCls : encodeA 0x0#4 nnn ≠ 0x00E0#16 := fun h => hcls (encodeA_injective 0x0 h)
  have notRet : encodeA 0x0#4 nnn ≠ 0x00EE#16 := fun h => hret (encodeA_injective 0x0 h)
  simp [encode, decodeWord, decodeFamily0, notCls, notRet]

theorem decodeWord_encode {i : Instr} (h : i.wellFormed = true) : decodeWord (encode i) = some i := by
  cases i
  case cls | ret => rfl
  case sys nnn =>
    obtain ⟨hcls, hret⟩ : nnn ≠ 0x0E0#12 ∧ nnn ≠ 0x0EE#12 := by simpa [Instr.wellFormed] using h
    exact decodeWord_encode_sys hcls hret
  case ldReg | orReg | andReg | xorReg | addReg | subReg | shr | subn | shl =>
    simp [encode, decodeWord, decodeFamily8]
  case skp | sknp => simp [encode, decodeWord, decodeFamilyE]
  case ldVxDt | ldVxK | ldDtVx | ldStVx | addI | ldF | ldB | storeRegs | loadRegs =>
    simp [encode, decodeWord, decodeFamilyF]
  all_goals simp [encode, decodeWord]

/-- Settles O1: the two bytes make up the encoded word again, which decodes by the family of the instruction. -/
theorem decodeOfEncodedBytesGivesTheInstruction : Obligations.DecodeOfEncodedBytesGivesTheInstruction := by
  intro i rest h
  simp [encodeBytes, decode, decodeWord_encode h]

/-! ### From the word to the instruction and back -/

/-- `i` is the well-formed instruction that the word `w` encodes. -/
def EncodesTo (i : Instr) (w : Word) : Prop := encode i = w ∧ i.wellFormed = true

theorem encodeA_of_op {w : Word} {op : BitVec 4} (h : Word.op w = op) : encodeA op (Word.nnn w) = w :=
  h ▸ encodeA_fields w

theorem encodeXK_of_op {w : Word} {op : BitVec 4} (h : Word.op w = op) : encodeXK op (Word.x w) (Word.kk w) = w :=
  h ▸ encodeXK_fields w

theorem encodeXYN_of_op {w : Word} {op : BitVec 4} (h : Word.op w = op) :
    encodeXYN op (Word.x w) (Word.y w) (Word.n w) = w :=
  h ▸ encodeXYN_fields w

theorem encodeXK_of_op_kk {w : Word} {op : BitVec 4} {kk : Imm8} (h : Word.op w = op) (hk : Word.kk w = kk) :
    encodeXK op (Word.x w) kk = w :=
  hk ▸ encodeXK_of_op h

theorem encodeXYN_of_op_n {w : Word} {op : BitVec 4} {n : Imm4} (h : Word.op w = op) (hn : Word.n w = n) :
    encodeXYN op (Word.x w) (Word.y w) n = w :=
  hn ▸ encodeXYN_of_op h

theorem encodesTo_decodeFamily0 {w : Word} (h : Word.op w = 0x0) : EncodesTo (decodeFamily0 w) w := by
  unfold decodeFamily0
  split_ifs with hcls hret
  · exact ⟨hcls.symm, rfl⟩
  · exact ⟨hret.symm, rfl⟩
  · have word : encodeA 0x0 (Word.nnn w) = w := encodeA_of_op h
    have notCls : Word.nnn w ≠ 0x0E0#12 := fun e => hcls (by rw [← word, e]; rfl)
    have notRet : Word.nnn w ≠ 0x0EE#12 := fun e => hret (by rw [← word, e]; rfl)
    exact ⟨word, by simp [Instr.wellFormed, notCls, notRet]⟩

theorem encodesTo_of_decodeFamily8 {w : Word} {i : Instr} (h : Word.op w = 0x8) (hd : decodeFamily8 w = some i) :
    EncodesTo i w := by
  unfold decodeFamily8 at hd
  split at hd
  case h_10 => cases hd
  all_goals
    rename_i hn
    cases hd
    exact ⟨encodeXYN_of_op_n h hn, rfl⟩

theorem encodesTo_of_decodeFamilyE {w : Word} {i : Instr} (h : Word.op w = 0xE) (hd : decodeFamilyE w = some i) :
    EncodesTo i w := by
  unfold decodeFamilyE at hd
  split at hd
  case h_3 => cases hd
  all_goals
    rename_i hk
    cases hd
    exact ⟨encodeXK_of_op_kk h hk, rfl⟩

theorem encodesTo_of_decodeFamilyF {w : Word} {i : Instr} (h : Word.op w = 0xF) (hd : decodeFamilyF w = some i) :
    EncodesTo i w := by
  unfold decodeFamilyF at hd
  split at hd
  case h_10 => cases hd
  all_goals
    rename_i hk
    cases hd
    exact ⟨encodeXK_of_op_kk h hk, rfl⟩

theorem encodesTo_of_decodeWord {w : Word} {i : Instr} (hd : decodeWord w = some i) : EncodesTo i w := by
  unfold decodeWord at hd
  split at hd
  case h_1 h => cases hd; exact encodesTo_decodeFamily0 h
  case h_9 h => exact encodesTo_of_decodeFamily8 h hd
  case h_15 h => exact encodesTo_of_decodeFamilyE h hd
  case h_16 h => exact encodesTo_of_decodeFamilyF h hd
  case h_6 h | h_10 h =>
    obtain ⟨hn, rfl⟩ : Word.n w = 0 ∧ _ = i := by simpa using hd
    exact ⟨encodeXYN_of_op_n h hn, rfl⟩
  case h_4 h | h_5 h | h_7 h | h_8 h | h_13 h => cases hd; exact ⟨encodeXK_of_op h, rfl⟩
  case h_14 h => cases hd; exact ⟨encodeXYN_of_op h, rfl⟩
  case h_17 => cases hd
  case h_2 h | h_3 h | h_11 h | h_12 h => cases hd; exact ⟨encodeA_of_op h, rfl⟩

/-- Settles O2, family by family: each branch of the decoder keeps the fields that its encoding puts together again. -/
theorem encodeOfDecodedWordGivesTheWord : Obligations.EncodeOfDecodedWordGivesTheWord :=
  fun _ _ hd => encodesTo_of_decodeWord hd

/-! ### The illegal words -/

theorem decodeFamily8_eq_none {w : Word} :
    decodeFamily8 w = none ↔ Word.n w ∈ ([0x8, 0x9, 0xA, 0xB, 0xC, 0xD, 0xF] : List (BitVec 4)) := by
  unfold decodeFamily8
  split
  case h_10 =>
    simp only [imp_false] at *
    simp only [List.mem_cons, List.not_mem_nil, or_false, true_iff]
    bv_omega
  all_goals simp_all

theorem decodeFamilyE_eq_none {w : Word} : decodeFamilyE w = none ↔ Word.kk w ≠ 0x9E ∧ Word.kk w ≠ 0xA1 := by
  unfold decodeFamilyE
  split <;> simp_all

theorem decodeFamilyF_eq_none {w : Word} : decodeFamilyF w = none ↔
    Word.kk w ∉ ([0x07, 0x0A, 0x15, 0x18, 0x1E, 0x29, 0x33, 0x55, 0x65] : List (BitVec 8)) := by
  unfold decodeFamilyF
  split <;> simp_all

/-- Settles O4, family by family: only families 5, 8, 9, E and F have words that match no row. -/
theorem illegalWordsAreTheFiveGroups : Obligations.IllegalWordsAreTheFiveGroups := by
  intro w
  unfold decodeWord
  split
  case h_9 h => simp [h, decodeFamily8_eq_none]
  case h_15 h => simp [h, decodeFamilyE_eq_none]
  case h_16 h => simp [h, decodeFamilyF_eq_none]
  case h_17 =>
    simp only [imp_false] at *
    bv_omega
  all_goals
    rename_i h
    simp [h]

/-- Settles O5: each word has a row or is of the groups of families 8 and 9 (decision D5). -/
theorem sampleWordsDecodeToTheirInstructions : Obligations.SampleWordsDecodeToTheirInstructions := by
  unfold Obligations.SampleWordsDecodeToTheirInstructions
  decide

end Sys2Proof
end

