-- ==== Sys2Proof/Proofs/Frames.lean ====
section
/-! What each instruction may change (10_state.md R12 to R28, 20_memory.md R33), said once for all 35: what a frame says,
the four instructions that can take a fault and the key wait, case by case, then one frame for every instruction. -/

namespace Sys2Proof.Machine

/-! ### What a frame says, piece by piece -/

section
variable {c : Changes} {s t : State} (h : Frame c s t)
include h

theorem Frame.reg_eq {r : Reg} (hr : r ∉ c.regs) : t.reg r = s.reg r := by
  obtain ⟨regs, -⟩ := h
  exact regs r hr

theorem Frame.i_eq (hi : c.i = false) : t.i = s.i := by
  obtain ⟨-, i, -⟩ := h
  exact i hi

theorem Frame.slot_eq {k : Fin 16} (hk : k.val ∉ c.slots) : t.stack[k] = s.stack[k] := by
  obtain ⟨-, -, slots, -⟩ := h
  exact slots k hk

theorem Frame.memRead_eq {a : Nat} (ha : maskAddr a ∉ c.mem) : t.memRead a = s.memRead a := by
  obtain ⟨-, -, -, -, -, -, mem, -⟩ := h
  exact mem a ha

theorem Frame.redraw_eq (hr : c.redraw = false) : t.redraw = s.redraw := by
  obtain ⟨-, -, -, -, -, -, -, -, redraw, -⟩ := h
  exact redraw hr

theorem Frame.status_eq (hs : c.status = false) : t.status = s.status := by
  obtain ⟨-, -, -, -, -, -, -, -, -, status, -⟩ := h
  exact status hs

theorem Frame.keypad_glyphs_eq : t.keypad = s.keypad ∧ t.glyphs = s.glyphs := by
  obtain ⟨-, -, -, -, -, -, -, -, -, -, -, host⟩ := h
  exact host

/-! A piece that changed is one that the frame names. -/

theorem Frame.sp_named (hne : t.sp ≠ s.sp) : c.sp = true := by
  obtain ⟨-, -, -, sp, -⟩ := h
  exact eq_true_of_ne_false (mt sp hne)

theorem Frame.dt_named (hne : t.dt ≠ s.dt) : c.dt = true := by
  obtain ⟨-, -, -, -, dt, -⟩ := h
  exact eq_true_of_ne_false (mt dt hne)

theorem Frame.st_named (hne : t.st ≠ s.st) : c.st = true := by
  obtain ⟨-, -, -, -, -, st, -⟩ := h
  exact eq_true_of_ne_false (mt st hne)

theorem Frame.fb_named (hne : t.fb ≠ s.fb) : c.fb = true := by
  obtain ⟨-, -, -, -, -, -, -, fb, -⟩ := h
  exact eq_true_of_ne_false (mt fb hne)

end

/-! ### More writes that a frame names -/

/-- No frame names `pc`. -/
theorem Frame.setPc {c : Changes} {s t : State} {a : Word} (h : Frame c s t) : Frame c s (t.setPc a) := h

theorem Frame.skipIf {c : Changes} {s t : State} {b : Bool} (h : Frame c s t) : Frame c s (t.skipIf b) := h

theorem Frame.setSlot {c : Changes} {s t : State} {k : Nat} {a : Word} (h : Frame c s t) (hk : k < 16)
    (named : k ∈ c.slots) : Frame c s { t with stack := t.stack.set k a hk } := by
  obtain ⟨regs, i, slots, rest⟩ := h
  refine ⟨regs, i, fun j hj => ?_, rest⟩
  rw [← slots j hj]
  exact Vector.getElem_set_ne hk j.isLt (ne_of_mem_of_not_mem named hj)

theorem Frame.setSp {c : Changes} {s t : State} {n : Fin 17} (h : Frame c s t) (named : c.sp = true) :
    Frame c s { t with sp := n } := by
  obtain ⟨regs, i, slots, -, rest⟩ := h
  exact ⟨regs, i, slots, by simp [named], rest⟩

theorem Frame.setFb {c : Changes} {s t : State} {fb : Framebuffer} (h : Frame c s t) (named : c.fb = true) :
    Frame c s { t with fb := fb } := by
  obtain ⟨regs, i, slots, sp, dt, st, mem, -, rest⟩ := h
  exact ⟨regs, i, slots, sp, dt, st, mem, by simp [named], rest⟩

theorem Frame.setStatus {c : Changes} {s t : State} {u : Status} (h : Frame c s t) (named : c.status = true) :
    Frame c s { t with status := u } := by
  obtain ⟨regs, i, slots, sp, dt, st, mem, fb, redraw, -, rest⟩ := h
  exact ⟨regs, i, slots, sp, dt, st, mem, fb, redraw, by simp [named], rest⟩

theorem Frame.raiseFault {c : Changes} {s : State} {k : FaultKind} (named : c.status = true) :
    Frame c s (s.raiseFault k) :=
  (Frame.refl c s).setStatus named

theorem Frame.drawByte {c : Changes} {s : State} (named : c.draws = true) : Frame c s s.drawByte.2 := by
  simp [Frame, State.drawByte, named, State.reg, State.memRead]

theorem Frame.decay {c : Changes} {s t : State} (h : Frame c s t) (dt : c.dt = true) (st : c.st = true) :
    Frame c s t.decay :=
  (h.setDT (b := decayTimer t.dt) dt).setST (b := decayTimer t.st) st

/-- The end of a cycle writes the timers at most (R63). -/
theorem Frame.endCycle {c : Changes} {s t : State} (h : Frame c s t) :
    Frame { c with dt := true, st := true } s t.endCycle := by
  obtain ⟨regs, i, slots, sp, -, -, rest⟩ := h
  have wide : Frame { c with dt := true, st := true } s t :=
    ⟨regs, i, slots, sp, nofun, nofun, rest⟩
  cases hs : t.status with
  | running => rw [State.endCycle_running hs]; exact wide.decay rfl rfl
  | halted f => rwa [State.endCycle_halted hs]
  | uninitialised => rwa [State.endCycle, hs]

/-! ### What a drawing writes -/

/-- The state with a finished drawing put on its screen: the pixels, `redraw`, the collision in VF, the next word
(R108). -/
def State.paint (s : State) (p : Canvas) : State :=
  ({ s with fb := p.fb, redraw := true }.setReg Reg.vf (flagByte p.hit)).advance

theorem exec_drw (x y : Reg) (n : Imm4) (s : State) :
    exec (.drw x y n) s = .next (s.paint (s.drawSprite (s.reg x).toNat (s.reg y).toNat n.toNat)) := rfl

theorem Frame.paint {c : Changes} {s t : State} {p : Canvas} (h : Frame c s t) (flag : Reg.vf ∈ c.regs)
    (screen : c.fb = true) (redraw : c.redraw = true) : Frame c s (t.paint p) := by
  have raised : Frame c s { t with fb := p.fb, redraw := true } := by
    obtain ⟨regs, i, slots, sp, dt, st, mem, -, -, rest⟩ := h
    exact ⟨regs, i, slots, sp, dt, st, mem, by simp [screen], by simp [redraw], rest⟩
  exact (raised.setReg flag).advance

/-! ### The instructions that can take a fault, and the key wait -/

theorem exec_unique {i : Instr} {s t u : State} (ht : exec i s = .next t) (hu : exec i s = .next u) : t = u :=
  Host.Outcome.next.inj (ht.symm.trans hu)

theorem exec_call_of_lt (nnn : Imm12) {s : State} (h : s.sp.val < 16) : exec (.call nnn) s = .next
    ({ s with stack := s.stack.set s.sp.val s.pc h, sp := ⟨s.sp.val + 1, by omega⟩ }.setPc (zextAddr nnn)) := by
  simp only [exec, execCall, State.push_eq_some.mpr ⟨h, rfl⟩]

theorem exec_call_of_full (nnn : Imm12) {s : State} (h : s.sp.val = 16) :
    exec (.call nnn) s = .next (s.raiseFault .stackOverflow) := by
  simp only [exec, execCall, State.push_eq_none.mpr h]

theorem exec_ret_of_pos {s : State} (h : 0 < s.sp.val) : exec .ret s = .next
    ({ s with sp := ⟨s.sp.val - 1, by omega⟩ }.setPc (s.stack[s.sp.val - 1]'(by omega) + 2)) := by
  simp only [exec, execRet, State.pop_eq_some.mpr ⟨h, rfl, rfl⟩]

theorem exec_ret_of_empty {s : State} (h : s.sp.val = 0) : exec .ret s = .next (s.raiseFault .stackUnderflow) := by
  simp only [exec, execRet, State.pop_eq_none.mpr h]

theorem exec_skp_of_lt {x : Reg} {s : State} (h : (s.reg x).toNat < 16) :
    exec (.skp x) s = .next (s.skipIf s.keypad[(s.reg x).toNat]) := by
  simp only [exec, execSkp, State.keyIndex_eq_some (k := ⟨_, h⟩).mpr rfl]
  rfl

theorem exec_skp_of_gt {x : Reg} {s : State} (h : 15 < (s.reg x).toNat) :
    exec (.skp x) s = .next (s.raiseFault .keyIndexOutOfRange) := by
  simp only [exec, execSkp, State.keyIndex_eq_none.mpr h]

theorem exec_sknp_of_lt {x : Reg} {s : State} (h : (s.reg x).toNat < 16) :
    exec (.sknp x) s = .next (s.skipIf !s.keypad[(s.reg x).toNat]) := by
  simp only [exec, execSknp, State.keyIndex_eq_some (k := ⟨_, h⟩).mpr rfl]
  rfl

theorem exec_sknp_of_gt {x : Reg} {s : State} (h : 15 < (s.reg x).toNat) :
    exec (.sknp x) s = .next (s.raiseFault .keyIndexOutOfRange) := by
  simp only [exec, execSknp, State.keyIndex_eq_none.mpr h]

theorem exec_ldVxK_of_key (x : Reg) {s : State} {k : Nat} (h : s.leastKey = some k) :
    exec (.ldVxK x) s = .next (s.setReg x (BitVec.ofNat 8 k)).advance := by
  simp only [exec, execLdVxK, h]

theorem exec_ldVxK_of_none (x : Reg) {s : State} (h : s.leastKey = none) : exec (.ldVxK x) s = .next s := by
  simp only [exec, execLdVxK, h]

/-! ### Which fault an instruction takes -/

/-- The fault that the instruction takes in this state, if any: the last three causes of R109. -/
def faultOf (i : Instr) (s : State) : Option FaultKind :=
  match i with
  | .call _ => if s.sp.val = 16 then some .stackOverflow else none
  | .ret => if s.sp.val = 0 then some .stackUnderflow else none
  | .skp x | .sknp x => if 15 < (s.reg x).toNat then some .keyIndexOutOfRange else none
  | _ => none

theorem exec_of_faultOf {i : Instr} {s : State} {k : FaultKind} (h : faultOf i s = some k) :
    exec i s = .next (s.raiseFault k) := by
  unfold faultOf at h
  split at h
  · obtain ⟨full, rfl⟩ : s.sp.val = 16 ∧ _ = k := by simpa using h
    exact exec_call_of_full _ full
  · obtain ⟨empty, rfl⟩ : s.sp.val = 0 ∧ _ = k := by simpa using h
    exact exec_ret_of_empty empty
  · obtain ⟨high, rfl⟩ : 15 < (s.reg _).toNat ∧ _ = k := by simpa using h
    exact exec_skp_of_gt high
  · obtain ⟨high, rfl⟩ : 15 < (s.reg _).toNat ∧ _ = k := by simpa using h
    exact exec_sknp_of_gt high
  · cases h

theorem faultOf_call_eq_none {nnn : Imm12} {s : State} : faultOf (.call nnn) s = none ↔ s.sp.val < 16 := by
  have : s.sp.val < 17 := s.sp.isLt
  simp only [faultOf, ite_eq_right_iff, reduceCtorEq, imp_false]
  omega

theorem faultOf_ret_eq_none {s : State} : faultOf .ret s = none ↔ 0 < s.sp.val := by
  simp [faultOf, Nat.pos_iff_ne_zero]

theorem faultOf_skp_eq_none {x : Reg} {s : State} : faultOf (.skp x) s = none ↔ (s.reg x).toNat < 16 := by
  simp [faultOf, Nat.lt_succ_iff]

theorem faultOf_sknp_eq_none {x : Reg} {s : State} : faultOf (.sknp x) s = none ↔ (s.reg x).toNat < 16 := by
  simp [faultOf, Nat.lt_succ_iff]

/-! ### The frame of every instruction -/

/-- What the instruction may change in this state. -/
def changesOf (i : Instr) (s : State) : Changes where
  regs := (List.finRange 16).filter (writesReg i)
  i := writesI i
  slots := match i with
    | .call _ => [s.sp.val]
    | _ => []
  sp := match i with
    | .call _ | .ret => true
    | _ => false
  dt := match i with
    | .ldDtVx _ => true
    | _ => false
  st := match i with
    | .ldStVx _ => true
    | _ => false
  mem := storedBy i s
  fb := match i with
    | .cls | .drw _ _ _ => true
    | _ => false
  redraw := match i with
    | .drw _ _ _ => true
    | _ => false
  status := (faultOf i s).isSome
  draws := match i with
    | .rnd _ _ => true
    | _ => false

theorem mem_changesOf_regs {i : Instr} {s : State} {r : Reg} : r ∈ (changesOf i s).regs ↔ writesReg i r = true := by
  simp [changesOf]

theorem changesOf_status_of_faultOf {i : Instr} {s : State} {k : FaultKind} (h : faultOf i s = some k) :
    (changesOf i s).status = true := by
  simp [changesOf, h]

/-- Every instruction stays within its own frame. -/
theorem exec_frame {i : Instr} {s t : State} (h : exec i s = .next t) : Frame (changesOf i s) s t := by
  cases hk : faultOf i s with
  | some k =>
    obtain rfl := exec_unique (exec_of_faultOf hk) h
    exact Frame.raiseFault (changesOf_status_of_faultOf hk)
  | none =>
    have start := Frame.refl (changesOf i s) s
    cases i
    case call nnn =>
      have room := faultOf_call_eq_none.mp hk
      obtain rfl := exec_unique (exec_call_of_lt nnn room) h
      exact ((start.setSlot room (List.mem_singleton_self _)).setSp rfl).setPc
    case ret =>
      have pos := faultOf_ret_eq_none.mp hk
      obtain rfl := exec_unique (exec_ret_of_pos pos) h
      exact (start.setSp rfl).setPc
    case skp x =>
      obtain rfl := exec_unique (exec_skp_of_lt (faultOf_skp_eq_none.mp hk)) h
      exact start.skipIf
    case sknp x =>
      obtain rfl := exec_unique (exec_sknp_of_lt (faultOf_sknp_eq_none.mp hk)) h
      exact start.skipIf
    case ldVxK x =>
      cases hl : s.leastKey with
      | none =>
        obtain rfl := exec_unique (exec_ldVxK_of_none x hl) h
        exact start
      | some k =>
        obtain rfl := exec_unique (exec_ldVxK_of_key x hl) h
        exact (start.setReg (mem_changesOf_regs.mpr (by simp [writesReg]))).advance
    all_goals obtain rfl := Host.Outcome.next.inj h
    case sys | jp | jpV0 => exact start.setPc
    case seImm | sneImm | seReg | sneReg => exact start.skipIf
    case ldImm | addImm | ldReg | orReg | andReg | xorReg | ldVxDt =>
      exact (start.setReg (mem_changesOf_regs.mpr (by simp [writesReg]))).advance
    case addReg | subReg | shr | subn | shl =>
      exact ((start.setReg (mem_changesOf_regs.mpr (by simp [writesReg]))).setReg
        (mem_changesOf_regs.mpr (by simp [writesReg]))).advance
    case rnd =>
      exact ((Frame.drawByte rfl).setReg (mem_changesOf_regs.mpr (by simp [writesReg]))).advance
    case cls => exact (start.setFb rfl).advance
    case drw =>
      exact start.paint (mem_changesOf_regs.mpr rfl) rfl rfl
    case ldI | addI | ldF => exact (start.setI rfl).advance
    case ldDtVx => exact (start.setDT rfl).advance
    case ldStVx => exact (start.setST rfl).advance
    case ldB =>
      have address (k : Nat) (hk : k < 3) := maskAddr_indexAddr_mem_storedAddrs s hk
      exact (((start.memWrite (address 0 (by decide))).memWrite (address 1 (by decide))).memWrite
        (address 2 (by decide))).advance
    case storeRegs x =>
      exact ((State.storeBlock_frame fun k hk => maskAddr_indexAddr_mem_storedAddrs s hk).setI rfl).advance
    case loadRegs x =>
      have named (k : Nat) (hk : k < x.val + 1) : Fin.ofNat 16 k ∈ (changesOf (.loadRegs x) s).regs := by
        have number : (Fin.ofNat 16 k).val = k := Nat.mod_eq_of_lt (by omega)
        exact mem_changesOf_regs.mpr (decide_eq_true (number.trans_le (Nat.le_of_lt_succ hk)))
      exact ((State.loadBlock_frame named).setI rfl).advance

/-- An instruction with none of the causes of R109 leaves the status alone. -/
theorem exec_status_of_no_fault {i : Instr} {s t : State} (h : exec i s = .next t) (hk : faultOf i s = none) :
    t.status = s.status :=
  (exec_frame h).status_eq (by simp [changesOf, hk])

end Sys2Proof.Machine
end

