-- ==== Sys2Proof/Proofs/StepCases.lean ====
section
/-! What a step can do: its cases, which cycles fault, wait or complete (40_engine_cycle.md R59 to R66,
60_exceptions.md R109 to R113), and who writes what (10_state.md R12 to R28, 20_memory.md R33), read off the frame of
every instruction. -/

namespace Sys2Proof.Machine

/-! ### The cases of a step -/

theorem step_decoded {s t : State} {i : Instr} (hs : s.status = .running) (hd : decodeWord s.fetchWord = some i)
    (h : exec i s = .next t) : step s = .next t.endCycle := by
  simp only [step, cycle_decoded hs hd h, dropOutputs]

/-- A cycle that completes ends with the decay. -/
theorem step_running {s t : State} {i : Instr} (hs : s.status = .running) (hd : decodeWord s.fetchWord = some i)
    (h : exec i s = .next t) (ht : t.status = .running) : step s = .next t.decay := by
  rw [step_decoded hs hd h, State.endCycle_running ht]

/-- A step that answers: a halted machine stays as it is, an illegal word is a fault taken, or an instruction runs. -/
theorem step_cases {s t : State} (h : step s = .next t) :
    (∃ f, s.status = .halted f ∧ t = s) ∨
    s.status = .running ∧
      ((decodeWord s.fetchWord = none ∧ t = s.raiseFault .invalidOpcode) ∨
        ∃ i u, decodeWord s.fetchWord = some i ∧ exec i s = .next u ∧ t = u.endCycle) := by
  obtain ⟨c, hc, rfl⟩ := step_eq_next.mp h
  rcases cycle_cases hc with ⟨f, hs, rfl⟩ | ⟨hs, ⟨hd, rfl⟩ | ⟨i, u, hd, hu, rfl⟩⟩
  · exact .inl ⟨f, hs, rfl⟩
  · exact .inr ⟨hs, .inl ⟨hd, rfl⟩⟩
  · exact .inr ⟨hs, .inr ⟨i, u, hd, hu, rfl⟩⟩

/-- Either no instruction runs and a step changes at most the status, or it stays within the instruction's frame and
the timers. -/
theorem step_frame {s t : State} (h : step s = .next t) :
    Frame { status := true } s t ∨
    ∃ i, s.status = .running ∧ decodeWord s.fetchWord = some i ∧
      Frame { changesOf i s with dt := true, st := true } s t := by
  rcases step_cases h with ⟨f, -, rfl⟩ | ⟨hs, ⟨-, rfl⟩ | ⟨i, u, hd, hu, rfl⟩⟩
  · exact .inl (Frame.refl _ _)
  · exact .inl (Frame.raiseFault rfl)
  · exact .inr ⟨i, hs, hd, (exec_frame hu).endCycle⟩

/-! ### A step of a running machine, and of the others -/

/-- Settles O7: a step is the instruction and then the end of the cycle, which is the decay of the two timers exactly
where the instruction left the machine running. -/
theorem stepRunsTheDecodedInstruction : Obligations.StepRunsTheDecodedInstruction := by
  intro s i hs hd
  obtain ⟨t, ht⟩ := exec_next i s
  rw [step_decoded hs hd ht, ht]
  cases hr : t.status with
  | running => simp [State.endCycle_running hr, State.decay, hr]
  | halted f => simp [State.endCycle_halted hr, hr]
  | uninitialised => simp [State.endCycle, hr]

/-- Settles O11: one equation of the cycle per status, and a running machine always has a next state. -/
theorem haltedOrUnresetMachineRunsNothing : Obligations.HaltedOrUnresetMachineRunsNothing := by
  intro s
  refine ⟨fun f hs => ⟨cycle_halted hs, step_halted hs⟩, fun hs => ?_, fun ⟨t, h⟩ hs => ?_, fun hs => ?_⟩
  · simp [step, cycle_uninitialised hs, dropOutputs]
  · rcases step_cases h with ⟨f, hf, -⟩ | ⟨hr, -⟩
    · simp [hf] at hs
    · simp [hr] at hs
  · cases hr : s.status with
    | uninitialised => exact absurd hr hs
    | halted f => exact ⟨s, step_halted hr⟩
    | running =>
      cases hd : decodeWord s.fetchWord with
      | none => exact ⟨_, step_eq_next.mpr ⟨_, cycle_illegal hr hd, rfl⟩⟩
      | some i =>
        obtain ⟨t, ht⟩ := exec_next i s
        exact ⟨_, step_decoded hr hd ht⟩

/-! ### The four causes of a fault -/

theorem faultCause_of_illegal {s : State} (hd : decodeWord s.fetchWord = none) :
    faultCause s = some .invalidOpcode := by
  simp only [faultCause, hd]

theorem faultCause_of_decoded {s : State} {i : Instr} (hd : decodeWord s.fetchWord = some i) :
    faultCause s = faultOf i s := by
  unfold faultCause faultOf
  rw [hd]
  cases i <;> rfl

/-- A fault taken by a running machine's cycle is its outcome, and nothing follows it. -/
theorem cycle_of_faultCause {s : State} {k : FaultKind} (hs : s.status = .running) (hk : faultCause s = some k) :
    cycle s = .next ⟨s.raiseFault k, .fault (s.faultRecord k), false⟩ := by
  cases hd : decodeWord s.fetchWord with
  | none =>
    obtain rfl : FaultKind.invalidOpcode = k := by simpa [faultCause_of_illegal hd] using hk
    exact cycle_illegal hs hd
  | some i =>
    rw [faultCause_of_decoded hd] at hk
    rw [cycle_decoded hs hd (exec_of_faultOf hk)]
    rfl

/-- Settles O9: with one of the four causes the cycle takes that fault, an illegal word's or the instruction's. -/
theorem faultingCycleChangesOnlyTheStatus : Obligations.FaultingCycleChangesOnlyTheStatus := by
  intro s k hs hk
  have taken := cycle_of_faultCause hs hk
  exact ⟨taken, step_eq_next.mpr ⟨_, taken, rfl⟩⟩

theorem waitsForKey_eq_true {i : Instr} {s : State} :
    waitsForKey i s = true ↔ (∃ x, i = .ldVxK x) ∧ ∀ k : Fin 16, s.keyPressed k = false := by
  unfold waitsForKey
  split
  · simp [← State.leastKey_eq_none]
  · next hno => simpa using fun x hx => absurd hx (hno x)

theorem outcomeOf_running {i : Instr} {s t : State} (h : t.status = .running) :
    outcomeOf i s t = if waitsForKey i s then .waiting else .executed := by
  simp only [outcomeOf, h]

theorem State.endCycle_status (t : State) : t.endCycle.status = t.status := by
  cases h : t.status <;> simp [State.endCycle, h]

theorem State.endCycle_pc (t : State) : t.endCycle.pc = t.pc := by
  cases h : t.status <;> simp [State.endCycle, h]

/-- Settles O10: without a cause the word decodes, the instruction leaves the machine running, and the one instruction
that waits is `Fx0A` with no key pressed, which changes nothing before the decay. -/
theorem cycleWithoutAFaultCauseCompletes : Obligations.CycleWithoutAFaultCauseCompletes := by
  intro s hs hk
  cases hd : decodeWord s.fetchWord with
  | none => simp [faultCause_of_illegal hd] at hk
  | some i =>
    rw [faultCause_of_decoded hd] at hk
    obtain ⟨t, ht⟩ := exec_next i s
    have running : t.status = .running := (exec_status_of_no_fault ht hk).trans hs
    have waiting : outcomeOf i s t = .waiting ↔
        (∃ x, i = .ldVxK x) ∧ ∀ k : Fin 16, s.keyPressed k = false := by
      rw [outcomeOf_running running, ← waitsForKey_eq_true]
      cases waitsForKey i s <;> simp
    refine ⟨_, cycle_decoded hs hd ht, step_decoded hs hd ht, t.endCycle_status.trans running, ?_, ?_, fun w => ?_⟩
    · rw [outcomeOf_running running]
      cases waitsForKey i s <;> simp
    · simpa using waiting
    · obtain ⟨⟨x, rfl⟩, released⟩ := waiting.mp w
      obtain rfl : s = t :=
        exec_unique (exec_ldVxK_of_none x (State.leastKey_eq_none.mpr released)) ht
      exact s.endCycle_pc

/-! ### Who writes what -/

/-- Settles O14: the registers an instruction names are those of its frame. -/
theorem registersAreWrittenOnlyByTheirInstructions : Obligations.RegistersAreWrittenOnlyByTheirInstructions := by
  intro i s t r h hw
  refine (exec_frame h).reg_eq fun named => ?_
  rw [mem_changesOf_regs, hw] at named
  cases named

theorem mem_changesOf_slots {i : Instr} {s : State} {k : Nat} (h : k ∈ (changesOf i s).slots) :
    (∃ nnn, i = .call nnn) ∧ k = s.sp.val := by
  unfold changesOf at h
  dsimp only at h
  split at h
  · exact ⟨⟨_, rfl⟩, List.mem_singleton.mp h⟩
  · cases h

theorem changesOf_dt {i : Instr} {s : State} : (changesOf i s).dt = true ↔ ∃ x, i = .ldDtVx x := by
  unfold changesOf
  dsimp only
  split <;> simp_all

theorem changesOf_st {i : Instr} {s : State} : (changesOf i s).st = true ↔ ∃ x, i = .ldStVx x := by
  unfold changesOf
  dsimp only
  split <;> simp_all

theorem changesOf_sp {i : Instr} {s : State} : (changesOf i s).sp = true ↔ (∃ nnn, i = .call nnn) ∨ i = .ret := by
  unfold changesOf
  dsimp only
  split <;> simp_all

theorem changesOf_fb {i : Instr} {s : State} :
    (changesOf i s).fb = true ↔ i = .cls ∨ ∃ x y n, i = .drw x y n := by
  unfold changesOf
  dsimp only
  split <;> simp_all

theorem changesOf_redraw {i : Instr} {s : State} : (changesOf i s).redraw = true ↔ ∃ x y n, i = .drw x y n := by
  unfold changesOf
  dsimp only
  split <;> simp_all

/-- A change of SP is the one return address more of a call or the one less of a return (R17). -/
theorem exec_sp {i : Instr} {s t : State} (h : exec i s = .next t) (hne : t.sp ≠ s.sp) :
    (i = .ret ∧ t.sp.val + 1 = s.sp.val) ∨ ((∃ nnn, i = .call nnn) ∧ t.sp.val = s.sp.val + 1) := by
  rcases changesOf_sp.mp ((exec_frame h).sp_named hne) with ⟨nnn, rfl⟩ | rfl
  · refine .inr ⟨⟨nnn, rfl⟩, ?_⟩
    by_cases room : s.sp.val < 16
    · obtain rfl := exec_unique (exec_call_of_lt nnn room) h
      rfl
    · obtain rfl := exec_unique (exec_call_of_full nnn (by omega)) h
      exact absurd rfl hne
  · refine .inl ⟨rfl, ?_⟩
    by_cases pos : 0 < s.sp.val
    · obtain rfl := exec_unique (exec_ret_of_pos pos) h
      exact Nat.sub_add_cancel pos
    · obtain rfl := exec_unique (exec_ret_of_empty (by omega)) h
      exact absurd rfl hne

/-- Settles O15: each piece of state changes only where the frame names it; SP by the two cases of `exec_sp`. -/
theorem indexStackAndTimersAreWrittenOnlyByTheirInstructions :
    Obligations.IndexStackAndTimersAreWrittenOnlyByTheirInstructions := by
  intro i s t h
  have frame := exec_frame h
  refine ⟨frame.i_eq, ⟨fun hne => ?_, fun k hk => ?_⟩, exec_sp h, fun hne => changesOf_dt.mp (frame.dt_named hne),
    fun hne => changesOf_st.mp (frame.st_named hne)⟩
  · by_contra hno
    exact hne (Vector.ext fun k hk => frame.slot_eq (k := ⟨k, hk⟩) fun named => hno (mem_changesOf_slots named).1)
  · exact frame.slot_eq fun named => hk (mem_changesOf_slots named).2

/-- Settles O16: the addresses stored to are those of the frame. -/
theorem memoryIsWrittenOnlyByTheTwoStores : Obligations.MemoryIsWrittenOnlyByTheTwoStores := by
  intro s t a h hno
  rcases step_frame h with frame | ⟨i, -, hd, frame⟩
  · exact frame.memRead_eq List.not_mem_nil
  · exact frame.memRead_eq (hno i hd)

/-- Settles O18: no frame lets the keypad or `GLYPHS` change. -/
theorem keypadAndGlyphsAreNeverWrittenByAStep : Obligations.KeypadAndGlyphsAreNeverWrittenByAStep := by
  intro s t h
  rcases step_frame h with frame | ⟨i, -, -, frame⟩
  · exact frame.keypad_glyphs_eq
  · exact frame.keypad_glyphs_eq

end Sys2Proof.Machine
end

