-- ==== Sys2Proof/Proofs/HostView.lean ====
section
/-! The keypad and the redraw flag as instructions see them (10_state.md R22, R23, R30): one theorem that no instruction
reads the redraw flag and only three read the keypad, and the obligations on the display, the keypad and the flag. -/

namespace Sys2Proof.Machine

/-! ### The redraw flag an instruction leaves -/

/-- The redraw flag after the instruction, from the flag before it. -/
def redrawAfter (i : Instr) (b : Bool) : Bool :=
  match i with
  | .drw _ _ _ => true
  | _ => b

theorem exec_redraw {i : Instr} {s t : State} (h : exec i s = .next t) : t.redraw = redrawAfter i s.redraw := by
  unfold redrawAfter
  split
  · obtain rfl := exec_unique (exec_drw ..) h
    rfl
  · next hno =>
    refine (exec_frame h).redraw_eq (eq_false_of_ne_true fun named => ?_)
    obtain ⟨x, y, n, rfl⟩ := changesOf_redraw.mp named
    exact hno x y n rfl

theorem redrawAfter_eq_true {i : Instr} {b : Bool} :
    redrawAfter i b = true ↔ b = true ∨ ∃ x y n, i = .drw x y n := by
  unfold redrawAfter
  split <;> simp_all

theorem State.endCycle_redraw (t : State) : t.endCycle.redraw = t.redraw := by
  cases h : t.status <;> simp [State.endCycle, h]

/-- Settles O17: the framebuffer by the frame of the step, and the flag by the instruction that ran, if one did. -/
theorem displayIsWrittenOnlyByClearAndDraw : Obligations.DisplayIsWrittenOnlyByClearAndDraw := by
  intro s t h
  constructor
  · intro hne
    rcases step_frame h with frame | ⟨i, hs, hd, frame⟩
    · exact nomatch frame.fb_named hne
    · exact ⟨hs, by simpa [hd] using (changesOf_fb (s := s)).mp (frame.fb_named hne)⟩
  · rcases step_cases h with ⟨f, hs, rfl⟩ | ⟨hs, ⟨hd, rfl⟩ | ⟨i, u, hd, hu, rfl⟩⟩
    · simp [hs]
    · simp [hd]
    · simp [State.endCycle_redraw, exec_redraw hu, redrawAfter_eq_true, hs, hd]

/-! ### What an instruction does not read -/

/-- The state with another keypad and another redraw flag. -/
def State.withHostView (s : State) (keys : Vector Bool 16) (b : Bool) : State := { s with keypad := keys, redraw := b }

theorem State.storeBlock_withHostView (s : State) (keys : Vector Bool 16) (b : Bool) (n : Nat) :
    (s.withHostView keys b).storeBlock n = (s.storeBlock n).withHostView keys b := by
  induction n with
  | zero => rfl
  | succ k ih => rw [storeBlock, ih]; rfl

theorem State.loadBlock_withHostView (s : State) (keys : Vector Bool 16) (b : Bool) (n : Nat) :
    (s.withHostView keys b).loadBlock n = (s.loadBlock n).withHostView keys b := by
  induction n with
  | zero => rfl
  | succ k ih => rw [loadBlock, ih]; rfl

theorem State.endCycle_withHostView (s : State) (keys : Vector Bool 16) (b : Bool) :
    (s.withHostView keys b).endCycle = s.endCycle.withHostView keys b := by
  cases hs : s.status with
  | running => rw [endCycle_running hs, endCycle_running (s := s.withHostView keys b) hs]; rfl
  | halted f => rw [endCycle_halted hs, endCycle_halted (s := s.withHostView keys b) hs]
  | uninitialised => simp only [endCycle, withHostView, hs]

/-- An instruction does the same whatever the redraw flag is, and whatever the keypad holds where it reads no key. -/
theorem exec_withHostView {i : Instr} {s t : State} {keys : Vector Bool 16} (b : Bool)
    (hkeys : readsKeypad i = true → keys = s.keypad) (h : exec i s = .next t) :
    exec i (s.withHostView keys b) = .next (t.withHostView keys (redrawAfter i b)) := by
  cases hk : faultOf i s with
  | some k =>
    have quiet : redrawAfter i b = b := by
      unfold redrawAfter
      split
      · simp [faultOf] at hk
      · rfl
    obtain rfl := exec_unique (exec_of_faultOf hk) h
    rw [quiet]
    exact exec_of_faultOf (s := s.withHostView keys b) hk
  | none =>
    cases i
    case call nnn =>
      have room := faultOf_call_eq_none.mp hk
      obtain rfl := exec_unique (exec_call_of_lt nnn room) h
      exact exec_call_of_lt (s := s.withHostView keys b) nnn room
    case ret =>
      have pos := faultOf_ret_eq_none.mp hk
      obtain rfl := exec_unique (exec_ret_of_pos pos) h
      exact exec_ret_of_pos (s := s.withHostView keys b) pos
    case skp x =>
      obtain rfl := hkeys rfl
      have low := faultOf_skp_eq_none.mp hk
      obtain rfl := exec_unique (exec_skp_of_lt low) h
      exact exec_skp_of_lt (s := s.withHostView s.keypad b) low
    case sknp x =>
      obtain rfl := hkeys rfl
      have low := faultOf_sknp_eq_none.mp hk
      obtain rfl := exec_unique (exec_sknp_of_lt low) h
      exact exec_sknp_of_lt (s := s.withHostView s.keypad b) low
    case ldVxK x =>
      obtain rfl := hkeys rfl
      cases hl : s.leastKey with
      | none =>
        obtain rfl := exec_unique (exec_ldVxK_of_none x hl) h
        exact exec_ldVxK_of_none (s := s.withHostView s.keypad b) x hl
      | some k =>
        obtain rfl := exec_unique (exec_ldVxK_of_key x hl) h
        exact exec_ldVxK_of_key (s := s.withHostView s.keypad b) x hl
    all_goals obtain rfl := Host.Outcome.next.inj h
    case storeRegs x => rw [exec_storeRegs, State.storeBlock_withHostView]; rfl
    case loadRegs x => rw [exec_loadRegs, State.loadBlock_withHostView]; rfl
    all_goals rfl

/-- Settles O19: the flag stays as the instruction leaves it, and the keypad is any where the instruction reads no
key. -/
theorem keypadIsReadOnlyByThreeInstructions : Obligations.KeypadIsReadOnlyByThreeInstructions := by
  intro i s t keys hi h
  have same := exec_withHostView (keys := keys) s.redraw (fun hr => by simp [hi] at hr) h
  rwa [← exec_redraw h] at same

/-- Settles O20, by the cases of a step: the fault record and the decay do not read the flag either. -/
theorem redrawFlagIsReadByNoInstruction : Obligations.RedrawFlagIsReadByNoInstruction := by
  intro s t b h
  rcases step_cases h with ⟨f, hs, rfl⟩ | ⟨hs, ⟨hd, rfl⟩ | ⟨i, u, hd, hu, rfl⟩⟩
  · exact ⟨b, step_halted (s := t.withHostView t.keypad b) hs⟩
  · exact ⟨b, step_eq_next.mpr ⟨_, cycle_illegal (s := s.withHostView s.keypad b) hs hd, rfl⟩⟩
  · have same := step_decoded (s := s.withHostView s.keypad b) hs hd (exec_withHostView b (fun _ => rfl) hu)
    have keys : u.endCycle.keypad = s.keypad := (keypadAndGlyphsAreNeverWrittenByAStep s _ h).1
    rw [State.endCycle_withHostView] at same
    refine ⟨redrawAfter i b, same.trans ?_⟩
    rw [← keys]
    rfl

end Sys2Proof.Machine
end

