-- ==== Sys2Proof/Proofs/Invariant.lean ====
section
/-! The machine's invariant: memory is canonical and a halted machine's record names its `pc` and the word there
(20_memory.md R33, 60_exceptions.md R111). Every step, every host action and so every host schedule keeps it
(40_engine_cycle.md R66, R67). -/

namespace Sys2Proof.Machine

/-! ### Steps -/

theorem exec_memWf {i : Instr} {s t : State} (h : exec i s = .next t) (hm : s.memWf = true) : t.memWf = true := by
  cases hk : faultOf i s with
  | some k =>
    obtain rfl := exec_unique (exec_of_faultOf hk) h
    exact hm
  | none =>
    cases i
    case call nnn =>
      obtain rfl := exec_unique (exec_call_of_lt nnn (faultOf_call_eq_none.mp hk)) h
      exact hm
    case ret =>
      obtain rfl := exec_unique (exec_ret_of_pos (faultOf_ret_eq_none.mp hk)) h
      exact hm
    case skp x =>
      obtain rfl := exec_unique (exec_skp_of_lt (faultOf_skp_eq_none.mp hk)) h
      exact hm
    case sknp x =>
      obtain rfl := exec_unique (exec_sknp_of_lt (faultOf_sknp_eq_none.mp hk)) h
      exact hm
    case ldVxK x =>
      cases hl : s.leastKey with
      | none => obtain rfl := exec_unique (exec_ldVxK_of_none x hl) h; exact hm
      | some k => obtain rfl := exec_unique (exec_ldVxK_of_key x hl) h; exact hm
    all_goals obtain rfl := Host.Outcome.next.inj h
    case ldB =>
      exact State.memWrite_memWf _ _ _ (State.memWrite_memWf _ _ _ (State.memWrite_memWf _ _ _ hm))
    case storeRegs x => exact s.storeBlock_memWf (x.val + 1) hm
    case loadRegs x => rw [State.loadBlock_eq]; exact hm
    all_goals exact hm

theorem State.endCycle_memWf (t : State) : t.endCycle.memWf = t.memWf := by
  cases h : t.status <;> simp [State.endCycle, State.memWf, h]

/-- A running machine meets the invariant where its memory is canonical. -/
theorem machineInv_of_running {s : State} (hm : s.memWf = true) (hs : s.status = .running) : MachineInv s :=
  ⟨hm, fun f hf => by simp [hs] at hf⟩

/-- A fault taken records the `pc` it keeps and the word there (R111). -/
theorem machineInv_raiseFault {s : State} (k : FaultKind) (hm : s.memWf = true) : MachineInv (s.raiseFault k) := by
  refine ⟨hm, fun f hf => ?_⟩
  obtain rfl : s.faultRecord k = f := by simpa using hf
  exact ⟨rfl, rfl⟩

/-- Settles O21, by the cases of a step: a halted machine stays as it is, a fault records what it keeps, and an
instruction that takes none leaves the machine running. -/
theorem everyStepKeepsTheMachineInvariant : Obligations.EveryStepKeepsTheMachineInvariant := by
  intro s t hinv h
  have hm : s.memWf = true := hinv.1
  rcases step_cases h with ⟨f, -, rfl⟩ | ⟨hs, ⟨-, rfl⟩ | ⟨i, u, -, hu, rfl⟩⟩
  · exact hinv
  · exact machineInv_raiseFault _ hm
  · rcases exec_status hu with same | ⟨k, rfl⟩
    · exact machineInv_of_running (u.endCycle_memWf.trans (exec_memWf hu hm)) (u.endCycle_status.trans (same.trans hs))
    · rw [State.endCycle_halted (s.raiseFault_status k)]
      exact machineInv_raiseFault k hm

/-! ### Reset and the host -/

theorem State.hostReset_memWf (s : State) : s.hostReset.memWf = true := Memory.wf_nil s.glyphs

theorem State.hostReset_status (s : State) : s.hostReset.status = .running := rfl

/-- Settles O22: the reset leaves memory as the empty list, and the machine running. -/
theorem resetMeetsTheMachineInvariant : Obligations.ResetMeetsTheMachineInvariant :=
  machineInv_of_running (Memory.wf_nil defaultGlyphs) rfl

/-- The loader's copy writes memory and nothing else. -/
theorem State.copyBytes_eq (bs : List Byte) (a : Nat) (s : State) :
    State.copyBytes bs a s = { s with mem := (State.copyBytes bs a s).mem } := by
  induction bs generalizing a s with
  | nil => rfl
  | cons b bs ih => exact ih (a + 1) (s.memWrite a b)

theorem State.copyBytes_status (bs : List Byte) (a : Nat) (s : State) : (State.copyBytes bs a s).status = s.status := by
  rw [copyBytes_eq]

theorem State.copyBytes_memWf (bs : List Byte) (a : Nat) {s : State} (hm : s.memWf = true) :
    (State.copyBytes bs a s).memWf = true := by
  induction bs generalizing a s with
  | nil => exact hm
  | cons b bs ih => exact ih (a + 1) (s.memWrite_memWf a b hm)

/-- A load that read its image leaves canonical memory and a running machine, too large an image included (R127). -/
theorem State.loadRom_bytes (s : State) (image : List Byte) :
    (s.loadRom (.bytes image)).2.memWf = true ∧ (s.loadRom (.bytes image)).2.status = .running := by
  simp only [loadRom]
  split_ifs
  · exact ⟨s.hostReset_memWf, s.hostReset_status⟩
  · exact ⟨copyBytes_memWf _ _ s.hostReset_memWf, (copyBytes_status _ _ _).trans s.hostReset_status⟩

/-- Settles O23: a reset and a load that read its image leave a running machine, and the other actions touch nothing
that the invariant speaks of. -/
theorem hostActionsKeepTheMachineInvariant : Obligations.HostActionsKeepTheMachineInvariant := by
  intro s a hinv
  cases a with
  | load source =>
    cases source with
    | unreadable => exact hinv
    | bytes image =>
      obtain ⟨hm, hs⟩ := s.loadRom_bytes image
      exact machineInv_of_running hm hs
  | reset => exact machineInv_of_running s.hostReset_memWf s.hostReset_status
  | key k pressed => exact hinv
  | keypad keys => exact hinv
  | clearRedraw => exact hinv

/-! ### Host schedules -/

/-- No host action takes a machine back to before its first reset (R24). -/
theorem State.hostAct_initialised {s : State} (a : HostAction) (hs : s.status ≠ .uninitialised) :
    (s.hostAct a).status ≠ .uninitialised := by
  cases a with
  | load source =>
    cases source with
    | unreadable => exact hs
    | bytes image =>
      obtain ⟨-, running⟩ := s.loadRom_bytes image
      simp [hostAct, running]
  | reset => exact nofun
  | key k pressed => exact hs
  | keypad keys => exact hs
  | clearRedraw => exact hs

/-- No step does either. -/
theorem step_initialised {s t : State} (h : step s = .next t) : t.status ≠ .uninitialised := by
  rcases step_cases h with ⟨f, hs, rfl⟩ | ⟨hs, ⟨-, rfl⟩ | ⟨i, u, -, hu, rfl⟩⟩
  · simp [hs]
  · simp
  · rw [u.endCycle_status]
    rcases exec_status hu with same | ⟨k, rfl⟩
    · simp [same, hs]
    · simp

/-- Settles O24, by induction on the schedule: each event keeps the invariant, and only the first cycle of a machine
that was never reset is refused. -/
theorem everyHostScheduleKeepsTheMachineInvariant : Obligations.EveryHostScheduleKeepsTheMachineInvariant := by
  intro es
  induction es with
  | nil => exact fun s hinv => .inl ⟨s, rfl, hinv, id⟩
  | cons e es ih =>
    intro s hinv
    cases e with
    | host a =>
      have kept := hostActionsKeepTheMachineInvariant s a hinv
      rcases ih (s.hostAct a) kept with ⟨t, run, inv, init⟩ | ⟨unset, refused⟩
      · exact .inl ⟨t, run, inv, fun hs => init (State.hostAct_initialised a hs)⟩
      · exact .inr ⟨not_not.mp fun hs => State.hostAct_initialised a hs unset, refused⟩
    | cycle =>
      obtain ⟨-, unset, next⟩ := haltedOrUnresetMachineRunsNothing s
      by_cases hs : s.status = .uninitialised
      · exact .inr ⟨hs, by simp only [runEvents, (unset hs).2]⟩
      · obtain ⟨t, ht⟩ := next.mpr hs
        have run : runEvents (.cycle :: es) s = runEvents es t := by simp only [runEvents, ht]
        rw [run]
        rcases ih t (everyStepKeepsTheMachineInvariant s t hinv ht) with ⟨u, hu, inv, init⟩ | ⟨unset, -⟩
        · exact .inl ⟨u, hu, inv, fun _ => init (step_initialised ht)⟩
        · exact absurd unset (step_initialised ht)

end Sys2Proof.Machine
end

