-- ==== Sys2Proof/Proofs/ResetAndHost.lean ====
section
/-! Reset, the loader and the other host actions (70_reset_and_hazards.md R124 to R128, 60_exceptions.md R120), the word
the host places, and the framebuffer as the host reads it (10_state.md R21). -/

namespace Sys2Proof.Machine

/-! ### The values of a reset -/

theorem maskAddr_of_lt {a : Nat} (h : a < 4096) : maskAddr a = a := Nat.mod_eq_of_lt h

/-- Right after a reset memory reads as its reset contents. -/
theorem State.hostReset_memRead (s : State) {a : Nat} (h : a < 4096) :
    s.hostReset.memRead a = Memory.unlisted s.glyphs a := by
  rw [memRead, maskAddr_of_lt h]
  rfl

theorem State.hostReset_memRead_glyph (s : State) {a : Nat} (h : a < 80) : s.hostReset.memRead a = s.glyphs[a] := by
  rw [s.hostReset_memRead (by omega), Memory.unlisted, dif_pos h]

theorem State.hostReset_memRead_zero (s : State) {a : Nat} (hlo : 80 ≤ a) (hhi : a < 4096) :
    s.hostReset.memRead a = 0 := by
  rw [s.hostReset_memRead hhi, Memory.unlisted, dif_neg (by omega)]

/-- Settles O53: every field by its definition, memory by its reset contents. -/
theorem resetGivesTheResetValues : Obligations.ResetGivesTheResetValues := by
  intro s
  refine ⟨fun r => ?_, rfl, rfl, fun k => ?_, rfl, rfl, rfl, fun a h => s.hostReset_memRead_glyph h,
    fun a lo hi => s.hostReset_memRead_zero lo hi, fun r c => pixel_clear r c, rfl, rfl, rfl⟩
  · exact Vector.getElem_replicate r.isLt
  · exact Vector.getElem_replicate k.isLt

/-! ### The loader -/

theorem State.copyBytes_memRead_outside (bs : List Byte) (a : Nat) (s : State) {q : Nat}
    (apart : ∀ k < bs.length, maskAddr (a + k) ≠ maskAddr q) : (State.copyBytes bs a s).memRead q = s.memRead q := by
  induction bs generalizing a s with
  | nil => rfl
  | cons b bs ih =>
    have later (k : Nat) (hk : k < bs.length) : maskAddr (a + 1 + k) ≠ maskAddr q := by
      have := apart (k + 1) (by simpa using hk)
      rwa [Nat.add_right_comm]
    have here : maskAddr a ≠ maskAddr q := apart 0 (by simp)
    rw [copyBytes, ih (a + 1) (s.memWrite a b) later, memWrite_memRead, if_neg here]

theorem State.copyBytes_memRead_inside (bs : List Byte) (a : Nat) (s : State) (fit : a + bs.length ≤ 4096) {k : Nat}
    (hk : k < bs.length) : (State.copyBytes bs a s).memRead (a + k) = bs[k] := by
  induction bs generalizing a s k with
  | nil => exact absurd hk (Nat.not_lt_zero k)
  | cons b bs ih =>
    simp only [List.length_cons] at fit hk
    cases k with
    | zero =>
      have apart (k : Nat) (hk : k < bs.length) : maskAddr (a + 1 + k) ≠ maskAddr a := by
        rw [maskAddr_of_lt (by omega), maskAddr_of_lt (by omega)]
        omega
      exact (copyBytes_memRead_outside bs (a + 1) _ apart).trans ((memWrite_memRead s a b a).trans (if_pos rfl))
    | succ k =>
      have step := ih (a + 1) (s.memWrite a b) (by omega) (k := k) (by omega)
      rwa [Nat.add_right_comm] at step

/-- Settles O54: the copy of an image that fits writes each byte once and no other address. -/
theorem loaderResetsThenCopiesTheImage : Obligations.LoaderResetsThenCopiesTheImage := by
  intro s image
  refine ⟨rfl, fun large => if_pos large, fun fits => ?_⟩
  have load : s.loadRom (.bytes image) = (.ok, State.copyBytes image 512 s.hostReset) := if_neg (Nat.not_lt.mpr fits)
  rw [load]
  refine ⟨rfl, fun k hk => ?_, fun a out ha => ?_, State.copyBytes_eq _ _ _⟩
  · exact State.copyBytes_memRead_inside image 512 _ (by omega) hk
  · refine State.copyBytes_memRead_outside image 512 _ fun k hk => ?_
    rw [maskAddr_of_lt (by omega), maskAddr_of_lt ha]
    omega

/-! ### The word the host places -/

theorem maskAddr_succ_ne (a : Nat) : maskAddr (a + 1) ≠ maskAddr a := by
  simp only [maskAddr, Config.memSize]
  omega

/-- Settles O6: the two bytes go to different masked addresses, and make up the word again. -/
theorem placedWordIsTheFetchedWord : Obligations.PlacedWordIsTheFetchedWord := by
  intro s nbits w
  refine ⟨?_, rfl, rfl, ?_⟩
  · have high : (s.withFetchWord nbits w).memRead s.pc.toNat = (tableBytes nbits w).1 := by
      refine (State.memWrite_memRead _ _ _ _).trans ?_
      simp [maskAddr_succ_ne]
    have low : (s.withFetchWord nbits w).memRead (s.pc.toNat + 1) = (tableBytes nbits w).2 :=
      (State.memWrite_memRead _ _ _ _).trans (if_pos rfl)
    exact (congrArg₂ wordOfBytes high low).trans (wordOfBytes_bytes _)
  · exact (((Frame.refl _ s).memWrite (by simp)).memWrite (by simp)).setStatus rfl

/-! ### The other host actions -/

/-- A machine's status after a host action: only a reset, or a load that read its image, sets it (R114). -/
theorem State.hostAct_status (s : State) (a : HostAction) :
    (s.hostAct a).status = .running ∧ (a = .reset ∨ ∃ image, a = .load (.bytes image)) ∨
    (s.hostAct a).status = s.status ∧ a ≠ .reset ∧ ∀ image, a ≠ .load (.bytes image) := by
  cases a with
  | load source =>
    cases source with
    | unreadable => exact .inr ⟨rfl, nofun, nofun⟩
    | bytes image => exact .inl ⟨(s.loadRom_bytes image).2, .inr ⟨image, rfl⟩⟩
  | reset => exact .inl ⟨rfl, .inl rfl⟩
  | key k pressed => exact .inr ⟨rfl, nofun, nofun⟩
  | keypad keys => exact .inr ⟨rfl, nofun, nofun⟩
  | clearRedraw => exact .inr ⟨rfl, nofun, nofun⟩

/-- Settles O56: a halted machine steps to itself, the actions that set the status set it to Running, and the others
write their own field. -/
theorem onlyResetLeavesTheHaltedState : Obligations.OnlyResetLeavesTheHaltedState := by
  intro s
  refine ⟨fun f hs => ⟨fun t h => ?_, fun a => ?_⟩, fun k b => ⟨?_, fun j hj => ?_, rfl⟩, fun _ => rfl, rfl, rfl⟩
  · obtain rfl : s = t := Host.Outcome.next.inj ((step_halted hs).symm.trans h)
    exact hs
  · rcases s.hostAct_status a with ⟨running, rfl | ⟨image, rfl⟩⟩ | ⟨same, others⟩
    · simp [running]
    · simp [running]
    · exact ⟨fun _ => others, fun _ => same.trans hs⟩
  · exact Vector.getElem_set_self k.isLt
  · exact Vector.getElem_set_ne k.isLt j.isLt fun e => hj (Fin.ext e.symm)

/-! ### The framebuffer as bytes -/

/-- Item `c` of block `r`, where all blocks of a flattened list have `m` items. -/
theorem getElem?_flatMap_of_length {α β : Type} {f : α → List β} {m : Nat} (hf : ∀ a, (f a).length = m) (l : List α)
    (r : Nat) {c : Nat} (hc : c < m) : (l.flatMap f)[r * m + c]? = l[r]?.bind (fun a => (f a)[c]?) := by
  induction l generalizing r with
  | nil => simp
  | cons a l ih =>
    rw [List.flatMap_cons]
    cases r with
    | zero => rw [Nat.zero_mul, Nat.zero_add, List.getElem?_append_left (by rwa [hf])]; rfl
    | succ r =>
      have skip : (r + 1) * m + c - (f a).length = r * m + c := by rw [hf, Nat.succ_mul]; omega
      rw [List.getElem?_append_right (by rw [hf, Nat.succ_mul]; omega), skip, ih]
      rfl

/-- One row of pixels as bytes. -/
def rowBytes (row : Vector Bool 64) : List Byte := row.toList.map (fun p => if p then 1 else 0)

theorem rowBytes_length (row : Vector Bool 64) : (rowBytes row).length = 64 := by
  rw [rowBytes, List.length_map, Vector.length_toList]

theorem State.readFramebuffer_eq (s : State) : s.readFramebuffer = s.fb.toList.flatMap rowBytes := rfl

/-- Settles O55: 32 rows of 64 bytes put end to end. -/
theorem hostReadsTheFramebufferRowByRow : Obligations.HostReadsTheFramebufferRowByRow := by
  intro s
  constructor
  · simp [State.readFramebuffer_eq, List.length_flatMap, rowBytes_length]
  · intro r c
    have row : s.fb.toList[r.val]? = some s.fb[r] := by simp
    have pixel : s.fb[r].toList[c.val]? = some (s.fb.pixel r c) := by simp [Framebuffer.pixel]
    rw [State.readFramebuffer_eq, getElem?_flatMap_of_length rowBytes_length _ _ c.isLt, row, Option.bind_some,
      rowBytes, List.getElem?_map, pixel, Option.map_some]

/-! ### A reset with no ROM, and a park -/

/-- Settles O57: the word at 512 is zero, which jumps to 0; the timers are 0 and stay so. -/
theorem emptyMemoryJumpsToTheGlyphs : Obligations.EmptyMemoryJumpsToTheGlyphs := by
  intro s
  have zero : s.hostReset.fetchWord = 0x0000 :=
    congrArg₂ wordOfBytes (s.hostReset_memRead_zero (a := 512) (by decide) (by decide))
      (s.hostReset_memRead_zero (a := 513) (by decide) (by decide))
  have jump : decodeWord s.hostReset.fetchWord = some (.sys 0) := by rw [zero]; decide
  have glyphs : (s.hostReset.setPc 0).fetchWord = wordOfBytes s.glyphs[0] s.glyphs[1] :=
    congrArg₂ wordOfBytes (s.hostReset_memRead_glyph (a := 0) (by decide))
      (s.hostReset_memRead_glyph (a := 1) (by decide))
  refine ⟨s.hostReset.setPc 0, step_decoded rfl jump rfl, rfl, rfl, State.setPc_frame _ _, glyphs, fun h0 h1 => ?_⟩
  have word : (s.hostReset.setPc 0).fetchWord = 0xF090 := by rw [glyphs, h0, h1]; rfl
  have illegal : decodeWord (s.hostReset.setPc 0).fetchWord = none := by rw [word]; decide
  refine (step_eq_next.mpr ⟨_, cycle_illegal rfl illegal, rfl⟩).trans ?_
  simp only [State.raiseFault, State.faultRecord, word]
  rfl

/-- Settles O58: the jump writes the `pc` it finds, so only the decay is left. -/
theorem parkedMachineChangesOnlyItsTimers : Obligations.ParkedMachineChangesOnlyItsTimers := by
  intro s nnn hs hd hpc
  have target : zextAddr nnn = s.pc := BitVec.eq_of_toNat_eq ((zextAddr_toNat nnn).trans hpc)
  have parked : exec (.jp nnn) s = .next s := by rw [exec_jp, target]; rfl
  exact ⟨s.decay, step_running hs hd parked hs, rfl, State.decayTimer_toNat s.dt, State.decayTimer_toNat s.st, hd⟩

end Sys2Proof.Machine
end

