-- ==== Sys2Proof/Proofs/Instructions.lean ====
section
/-! One instruction at a time: calls, returns and their faults (41_control_transfer.md R69, R70, R72), skips on a key
(42_conditional_skip.md R79, R80), the ALU instructions that write VF and the random byte (43_register_alu.md R87 to
R92), the key wait (45_timers_keypad.md R101) and the clear (46_display.md R107). -/

namespace Sys2Proof.Machine

/-! ### Calls and returns -/

theorem exec_sys (nnn : Imm12) (s : State) : exec (.sys nnn) s = .next (s.setPc (zextAddr nnn)) := rfl

/-- Settles O26: the word is `encode (.sys nnn)`, and the jump is one write of `pc`. -/
theorem machineRoutineCallIsAJump : Obligations.MachineRoutineCallIsAJump := by
  intro nnn s
  exact ⟨fun hcls hret => decodeWord_encode_sys hcls hret, _, exec_sys nnn s, zextAddr_toNat nnn, s.setPc_frame _⟩

/-- Settles O27: with room on the stack the push writes the slot at SP and raises SP. -/
theorem callPushesItsOwnAddress : Obligations.CallPushesItsOwnAddress := by
  intro nnn s h
  exact ⟨_, exec_call_of_lt nnn h, Vector.getElem_set_self h, rfl, zextAddr_toNat nnn,
    (((Frame.refl _ s).setSlot h (List.mem_singleton_self _)).setSp rfl).setPc⟩

/-- Settles O28: the pop lowers SP and writes no slot. -/
theorem returnGoesPastTheCall : Obligations.ReturnGoesPastTheCall := by
  intro s h
  exact ⟨_, exec_ret_of_pos h, Nat.sub_add_cancel h, BitVec.toNat_add _ _, ((Frame.refl _ s).setSp rfl).setPc⟩

/-- Settles O29: the full and the empty stack are the two causes, and a fault taken is the halted state. -/
theorem stackFaultsHaltTheMachine : Obligations.StackFaultsHaltTheMachine :=
  fun nnn _ => ⟨fun full => exec_call_of_full nnn full, fun empty => exec_ret_of_empty empty⟩

/-! ### Skips on a key -/

/-- Settles O33: an index in range is a key, and the two instructions are skips on it and on its negation. -/
theorem skipsOnAKey : Obligations.SkipsOnAKey := by
  intro x s h
  refine ⟨exec_skip (exec_skp_of_lt h) Iff.rfl, ?_⟩
  have skip := exec_skip (p := ¬ s.keypad[(s.reg x).toNat] = true) (exec_sknp_of_lt h) (by simp)
  simpa only [ite_not] using skip

/-- Settles O34: a register above 15 is the cause, and a fault taken is the halted state. -/
theorem keyIndexAboveFifteenHaltsTheMachine : Obligations.KeyIndexAboveFifteenHaltsTheMachine :=
  fun _ _ high => ⟨exec_skp_of_gt high, exec_sknp_of_gt high⟩

/-! ### A write of VF, then of the result -/

/-- What an instruction does that writes `f` to VF, then `b` to `V[x]`, and goes on to the next word: the result stays
where VF is the destination itself (decision D4). -/
theorem exec_writesFlagThenReg {i : Instr} {s : State} {x : Reg} {f b : Byte} {flag result : Nat}
    (hexec : exec i s = .next ((s.setReg Reg.vf f).setReg x b).advance) (hf : f.toNat = flag) (hb : b.toNat = result) :
    ∃ t : State, exec i s = .next t ∧ (t.reg x).toNat = result ∧ (x ≠ Reg.vf → (t.reg Reg.vf).toNat = flag) ∧
      t.pc = s.pc + 2 ∧ Frame { regs := [x, Reg.vf] } s t := by
  refine ⟨_, hexec, by simpa using hb, fun hx => ?_, rfl, ?_⟩
  · rw [State.advance_reg, State.setReg_reg, if_neg hx.symm, State.setReg_reg, if_pos rfl, hf]
  · exact (((Frame.refl _ s).setReg (by simp)).setReg (by simp)).advance

/-- An operand read after the write of VF, as a number: the flag where the operand is VF (decision D4). -/
theorem reg_after_flag (s : State) (f : Byte) (r : Reg) :
    ((s.setReg Reg.vf f).reg r).toNat = if r = Reg.vf then f.toNat else (s.reg r).toNat := by
  rw [State.setReg_reg, apply_ite BitVec.toNat]

theorem flagByte_toNat (c : Bool) : (flagByte c).toNat = if c then 1 else 0 := by
  cases c <;> rfl

theorem shiftOutLow_toNat (a : Byte) : (shiftOutLow a).toNat = a.toNat % 2 := by
  simp [shiftOutLow, Nat.and_one_is_mod]

theorem shiftOutHigh_toNat (a : Byte) : (shiftOutHigh a).toNat = a.toNat / 128 := by
  simp [shiftOutHigh, Nat.shiftRight_eq_div_pow]

theorem byte_sub_toNat (a b : Byte) : (a - b).toNat = (a.toNat + 256 - b.toNat) % 256 := by
  rw [BitVec.toNat_sub]
  omega

/-! ### The instructions with a flag -/

theorem exec_addReg (x y : Reg) (s : State) : exec (.addReg x y) s =
    .next ((s.setReg Reg.vf (flagByte (carryFlag (s.reg x) (s.reg y)))).setReg x (s.reg x + s.reg y)).advance := rfl

theorem exec_subReg (x y : Reg) (s : State) : exec (.subReg x y) s =
    let s1 := s.setReg Reg.vf (flagByte (notBorrowFlag (s.reg x) (s.reg y)))
    .next (s1.setReg x (s1.reg x - s1.reg y)).advance := rfl

theorem exec_subn (x y : Reg) (s : State) : exec (.subn x y) s =
    let s1 := s.setReg Reg.vf (flagByte (notBorrowFlag (s.reg y) (s.reg x)))
    .next (s1.setReg x (s1.reg y - s1.reg x)).advance := rfl

theorem exec_shr (x y : Reg) (s : State) : exec (.shr x y) s =
    let s1 := s.setReg Reg.vf (shiftOutLow (s.reg x))
    .next (s1.setReg x (s1.reg x >>> 1)).advance := rfl

theorem exec_shl (x y : Reg) (s : State) : exec (.shl x y) s =
    let s1 := s.setReg Reg.vf (shiftOutHigh (s.reg x))
    .next (s1.setReg x (s1.reg x <<< 1)).advance := rfl

/-- Settles O37: the sum is taken before VF is written. -/
theorem addRegistersGivesSumAndCarry : Obligations.AddRegistersGivesSumAndCarry := by
  intro x y s
  exact exec_writesFlagThenReg (exec_addReg x y s) (by simp [flagByte_toNat, carryFlag]) (BitVec.toNat_add _ _)

/-- The strict not-borrow as a number. -/
theorem notBorrowFlag_toNat (a b : Byte) :
    (flagByte (notBorrowFlag a b)).toNat = if b.toNat < a.toNat then 1 else 0 := by
  simp [flagByte_toNat, notBorrowFlag]

/-- Settles O38: each operand of the difference is read after the write of VF. -/
theorem subtractionsReadAfterTheFlagWrite : Obligations.SubtractionsReadAfterTheFlagWrite := by
  intro x y s
  constructor
  · obtain ⟨t, hexec, result, rest⟩ := exec_writesFlagThenReg (exec_subReg x y s) rfl rfl
    refine ⟨t, _, hexec, notBorrowFlag_toNat _ _, ?_, rest⟩
    rw [result, byte_sub_toNat, reg_after_flag, reg_after_flag]
  · obtain ⟨t, hexec, result, rest⟩ := exec_writesFlagThenReg (exec_subn x y s) rfl rfl
    refine ⟨t, _, hexec, notBorrowFlag_toNat _ _, ?_, rest⟩
    rw [result, byte_sub_toNat, reg_after_flag, reg_after_flag]

/-- Settles O39: the shift reads `V[x]` after the write of VF, so a shift of VF shifts the bit put there. -/
theorem shiftsPutTheBitShiftedOutInTheFlag : Obligations.ShiftsPutTheBitShiftedOutInTheFlag := by
  intro x y s
  have byte : (s.reg x).toNat < 256 := (s.reg x).isLt
  constructor
  · refine exec_writesFlagThenReg (exec_shr x y s) (shiftOutLow_toNat _) ?_
    rw [BitVec.toNat_ushiftRight, reg_after_flag, shiftOutLow_toNat, Nat.shiftRight_eq_div_pow]
    split <;> omega
  · refine exec_writesFlagThenReg (exec_shl x y s) (shiftOutHigh_toNat _) ?_
    rw [BitVec.toNat_shiftLeft, reg_after_flag, shiftOutHigh_toNat, Nat.shiftLeft_eq]
    split <;> omega

/-! ### The random byte, the key wait, the clear -/

theorem exec_rnd (x : Reg) (kk : Imm8) (s : State) :
    exec (.rnd x kk) s = .next (s.drawByte.2.setReg x (Config.randomByte s.draws &&& kk)).advance := rfl

/-- Settles O40: a masked byte has no bit outside its mask. -/
theorem randomByteIsMaskedByTheImmediate : Obligations.RandomByteIsMaskedByTheImmediate := by
  intro x kk s
  have written := s.drawByte.2.setReg_advance_reg x (Config.randomByte s.draws &&& kk)
  refine ⟨_, exec_rnd x kk s, written, fun k hk => ?_, rfl, rfl, ?_⟩
  · rw [written, BitVec.getLsbD_and, hk, Bool.and_false]
  · exact ((Frame.drawByte rfl).setReg (List.mem_singleton_self x)).advance

/-- Settles O46: the least pressed key is below 16, so the byte written is its number. -/
theorem keyWaitTakesTheLeastPressedKey : Obligations.KeyWaitTakesTheLeastPressedKey := by
  intro x s
  refine ⟨fun k pressed least => ?_, fun released => exec_ldVxK_of_none x (State.leastKey_eq_none.mpr released)⟩
  have key : s.leastKey = some k.val := State.leastKey_eq_some.mpr ⟨k.isLt, pressed, fun j hj => least j hj⟩
  refine exec_writesReg (fun b => b.toNat = k.val) (exec_ldVxK_of_key x key) ?_
  rw [BitVec.toNat_ofNat]
  omega

theorem exec_cls (s : State) : exec .cls s = .next { s with fb := Framebuffer.clear }.advance := rfl

/-- Settles O47: the one write is of the framebuffer. -/
theorem clearTurnsEveryPixelOff : Obligations.ClearTurnsEveryPixelOff :=
  fun s => ⟨_, exec_cls s, pixel_clear, rfl, ((Frame.refl _ s).setFb rfl).advance⟩

end Sys2Proof.Machine
end

