-- ==== Sys2Proof/Proofs/Drawing.lean ====
section
/-! `Dxyn` (46_display.md R105, R106, R108): the drawing of all sprite rows against the sprite as a picture, and what
two drawings of the same sprite leave. -/

namespace Sys2Proof.Machine

/-! ### The picture, one more row at a time -/

/-- The row offset of a screen row from the start row, counted around the screen. -/
def rowOffset (cy : Nat) (r : Fin 32) : Nat := (r.val + 32 - cy % 32) % 32

theorem rowOffset_eq (cy k : Nat) (r : Fin 32) (hk : k < 32) : rowOffset cy r = k ↔ r = Fin.ofNat 32 (cy + k) := by
  have : r.val < 32 := r.isLt
  rw [Fin.ext_iff]
  simp only [rowOffset, Fin.ofNat]
  omega

theorem spritePixel_eq_true {s : State} {cx cy n : Nat} {r : Fin 32} {c : Fin 64} :
    spritePixel s cx cy n r c = true ↔ rowOffset cy r < n ∧ columnOffset cx c < 8 ∧
      (s.memRead (s.indexAddr (rowOffset cy r))).getLsbD (7 - columnOffset cx c) = true := by
  simp [spritePixel, rowOffset, columnOffset, and_assoc]

/-- The screen pixels of sprite row `k` are those that the drawing of that row flips. -/
theorem spritePixel_succ {s : State} {cx cy k : Nat} (hk : k < 32) {r : Fin 32} {c : Fin 64} :
    spritePixel s cx cy (k + 1) r c = true ↔ spritePixel s cx cy k r c = true ∨
      r = Fin.ofNat 32 (cy + k) ∧ columnOffset cx c < 8 ∧
        (s.memRead (s.indexAddr k)).getLsbD (7 - columnOffset cx c) = true := by
  rw [spritePixel_eq_true, spritePixel_eq_true, Nat.lt_succ_iff_lt_or_eq, or_and_right, ← rowOffset_eq cy k r hk]
  refine or_congr Iff.rfl (and_congr_right fun e => ?_)
  rw [e]

/-- The rows above `k` do not reach the screen row of sprite row `k`. -/
theorem spritePixel_rows_apart {s : State} {cx cy k : Nat} (hk : k < 32) {c : Fin 64} :
    spritePixel s cx cy k (Fin.ofNat 32 (cy + k)) c = false := by
  have row : rowOffset cy (Fin.ofNat 32 (cy + k)) = k := (rowOffset_eq cy k _ hk).mpr rfl
  refine eq_false_of_ne_true fun h => ?_
  obtain ⟨above, -⟩ := spritePixel_eq_true.mp h
  omega

/-! ### The drawing of all rows -/

theorem State.drawSprite_succ (s : State) (cx cy k : Nat) :
    s.drawSprite cx cy (k + 1) =
      drawRow (s.memRead (s.indexAddr k)) cx (Fin.ofNat 32 (cy + k)) (s.drawSprite cx cy k) := by
  rw [drawSprite, List.range_succ, List.foldl_append]
  rfl

/-- The drawing XORs the picture onto the screen. -/
theorem State.drawSprite_pixel (s : State) (cx cy : Nat) {n : Nat} (hn : n ≤ 32) (r : Fin 32) (c : Fin 64) :
    (s.drawSprite cx cy n).fb.pixel r c = xor (s.fb.pixel r c) (spritePixel s cx cy n r c) := by
  induction n with
  | zero => simp [drawSprite, spritePixel]
  | succ k ih =>
    have picture := spritePixel_succ (s := s) (cx := cx) (cy := cy) (k := k) hn (r := r) (c := c)
    rw [drawSprite_succ, drawRow_pixel, ih (by omega), Bool.xor_assoc]
    congr 1
    by_cases row : r = Fin.ofNat 32 (cy + k)
    · have apart : spritePixel s cx cy k r c = false := row ▸ spritePixel_rows_apart hn
      rw [apart, Bool.false_xor, Bool.eq_iff_iff, picture, apart]
      simp only [Bool.and_eq_true, decide_eq_true_eq, Bool.false_eq_true, false_or, and_assoc]
    · have other : decide (r = Fin.ofNat 32 (cy + k) ∧ columnOffset cx c < 8) = false :=
        decide_eq_false fun h => row h.1
      rw [other, Bool.false_and, Bool.xor_false, Bool.eq_iff_iff, picture, or_iff_left fun h => row h.1]

/-- The drawing notes a collision exactly where the picture meets a set pixel. -/
theorem State.drawSprite_hit (s : State) (cx cy : Nat) {n : Nat} (hn : n ≤ 32) :
    (s.drawSprite cx cy n).hit = true ↔ ∃ r c, spritePixel s cx cy n r c = true ∧ s.fb.pixel r c = true := by
  induction n with
  | zero => simp [drawSprite, spritePixel]
  | succ k ih =>
    have fresh (c : Fin 64) :
        (s.drawSprite cx cy k).fb.pixel (Fin.ofNat 32 (cy + k)) c = s.fb.pixel (Fin.ofNat 32 (cy + k)) c := by
      rw [s.drawSprite_pixel cx cy (by omega), spritePixel_rows_apart hn, Bool.xor_false]
    simp only [drawSprite_succ, drawRow_hit, ih (by omega), fresh, spritePixel_succ (k := k) hn]
    constructor
    · rintro (⟨r, c, above, set⟩ | ⟨c, column, bit, set⟩)
      · exact ⟨r, c, .inl above, set⟩
      · exact ⟨_, c, .inr ⟨rfl, column, bit⟩, set⟩
    · rintro ⟨r, c, above | ⟨rfl, column, bit⟩, set⟩
      · exact .inl ⟨r, c, above, set⟩
      · exact .inr ⟨c, column, bit, set⟩

/-! ### The instruction -/

theorem nibble_le (n : Imm4) : n.toNat ≤ 32 := by
  have : n.toNat < 16 := n.isLt
  omega

theorem State.paint_vf (s : State) (p : Canvas) : (s.paint p).reg Reg.vf = flagByte p.hit :=
  State.setReg_advance_reg _ Reg.vf _

/-- A register other than VF is kept by a drawing. -/
theorem State.paint_reg (s : State) (p : Canvas) {r : Reg} (hr : r ≠ Reg.vf) : (s.paint p).reg r = s.reg r := by
  rw [paint, advance_reg, setReg_reg, if_neg hr]
  rfl

theorem flagByte_toNat_eq_one {c : Bool} : (flagByte c).toNat = 1 ↔ c = true := by
  cases c <;> decide

/-- VF is 1 after a drawing exactly where the picture meets a set pixel (decision D9). -/
theorem State.paint_drawSprite_vf (s : State) (cx cy : Nat) (n : Imm4) :
    ((s.paint (s.drawSprite cx cy n.toNat)).reg Reg.vf).toNat = 1 ↔
      ∃ r c, spritePixel s cx cy n.toNat r c = true ∧ s.fb.pixel r c = true := by
  rw [paint_vf, flagByte_toNat_eq_one, s.drawSprite_hit cx cy (nibble_le n)]

/-- Settles O48: the drawing XORs the picture, and a set pixel that the picture meets is one that goes off. -/
theorem drawXorsTheSpriteOntoTheScreen : Obligations.DrawXorsTheSpriteOntoTheScreen := by
  intro x y n s
  have pixel := s.drawSprite_pixel (s.reg x).toNat (s.reg y).toNat (nibble_le n)
  refine ⟨_, exec_drw x y n s, pixel, ?_, ?_, rfl, rfl, (Frame.refl _ s).paint (by simp) rfl rfl⟩
  · rw [State.paint_vf, flagByte_toNat]
    split <;> simp
  · rw [State.paint_drawSprite_vf]
    refine exists_congr fun r => exists_congr fun c => ?_
    have new : (s.paint (s.drawSprite (s.reg x).toNat (s.reg y).toNat n.toNat)).fb.pixel r c = _ := pixel r c
    rw [new]
    cases s.fb.pixel r c <;> simp

/-! ### Two drawings -/

/-- A drawing leaves the sprite's own bytes and `I`, so the picture stays. -/
theorem spritePixel_paint (s : State) (p : Canvas) (cx cy n : Nat) (r : Fin 32) (c : Fin 64) :
    spritePixel (s.paint p) cx cy n r c = spritePixel s cx cy n r c := rfl

theorem exists_getLsbD_of_ne_zero {b : Byte} (h : b ≠ 0) : ∃ j < 8, b.getLsbD j = true := by
  by_contra hno
  push Not at hno
  exact h (BitVec.eq_of_getLsbD_eq fun j hj => by simpa using hno j hj)

/-- The picture has a pixel on exactly where one of its rows has a 1 bit, wherever on the screen it starts. -/
theorem exists_spritePixel_iff (s : State) (cx cy : Nat) {n : Nat} (hn : n ≤ 32) :
    (∃ r c, spritePixel s cx cy n r c = true) ↔ ∃ k < n, s.memRead (s.indexAddr k) ≠ 0 := by
  constructor
  · rintro ⟨r, c, h⟩
    obtain ⟨row, -, bit⟩ := spritePixel_eq_true.mp h
    refine ⟨_, row, fun zero => ?_⟩
    simp [zero] at bit
  · rintro ⟨k, hk, nonzero⟩
    obtain ⟨j, hj, bit⟩ := exists_getLsbD_of_ne_zero nonzero
    have row : rowOffset cy (Fin.ofNat 32 (cy + k)) = k := (rowOffset_eq cy k _ (by omega)).mpr rfl
    have column : columnOffset cx (Fin.ofNat 64 (cx + (7 - j))) = 7 - j := (columnOffset_eq cx _ _ (by omega)).mpr rfl
    have back : 7 - (7 - j) = j := by omega
    exact ⟨Fin.ofNat 32 (cy + k), Fin.ofNat 64 (cx + (7 - j)),
      spritePixel_eq_true.mpr ⟨by rwa [row], by rw [column]; omega, by rwa [row, column, back]⟩⟩

/-- Settles O51: the coordinates and the picture are the same both times, so the second XOR undoes the first and meets
the pixels that the first one set. -/
theorem drawingTwiceRestoresTheScreen : Obligations.DrawingTwiceRestoresTheScreen := by
  intro x y n s t hx hy ht
  obtain rfl := exec_unique (exec_drw x y n s) ht
  generalize hcx : (s.reg x).toNat = cx
  generalize hcy : (s.reg y).toNat = cy
  have first := s.drawSprite_pixel cx cy (nibble_le n)
  generalize hp : s.drawSprite cx cy n.toNat = p at first
  have again : exec (.drw x y n) (s.paint p) = .next ((s.paint p).paint ((s.paint p).drawSprite cx cy n.toNat)) := by
    rw [exec_drw, s.paint_reg p hx, s.paint_reg p hy, hcx, hcy]
  have collision := (s.paint p).paint_drawSprite_vf cx cy n
  refine ⟨_, again, framebuffer_ext fun r c => ?_, collision.trans ?_, fun clear => collision.trans ?_⟩
  · refine ((s.paint p).drawSprite_pixel cx cy (nibble_le n) r c).trans ?_
    rw [spritePixel_paint]
    exact (congrArg₂ xor (first r c) rfl).trans (by simp)
  · refine exists_congr fun r => exists_congr fun c => ?_
    have new : (s.paint p).fb.pixel r c = _ := first r c
    rw [spritePixel_paint, new]
    cases s.fb.pixel r c <;> simp
  · rw [← exists_spritePixel_iff s cx cy (nibble_le n)]
    refine exists_congr fun r => exists_congr fun c => ?_
    have new : (s.paint p).fb.pixel r c = _ := first r c
    rw [spritePixel_paint, new, clear]
    simp

end Sys2Proof.Machine
end

