-- ==== Sys2Proof/Proofs/Sequences.lean ====
section
/-! Two instructions in a row: a call and its return (41_control_transfer.md R69, R72), a block stored and loaded back
(44_index_memory.md R98, R99), and a block stored over the next instruction (20_memory.md R44). -/

namespace Sys2Proof.Machine

/-! ### A call and its return -/

/-- A frame need not name SP where SP is back at its old value. -/
theorem Frame.sp_restored {c : Changes} {s t : State} (h : Frame c s t) (back : t.sp = s.sp) :
    Frame { c with sp := false } s t := by
  obtain ⟨regs, i, slots, -, rest⟩ := h
  exact ⟨regs, i, slots, fun _ => back, rest⟩

/-- The state after the cycle of a call with room on the stack. -/
def State.afterCall (s : State) (nnn : Imm12) (room : s.sp.val < 16) : State :=
  ({ s with stack := s.stack.set s.sp.val s.pc room, sp := ⟨s.sp.val + 1, by omega⟩ }.setPc (zextAddr nnn)).decay

theorem step_call {s : State} {nnn : Imm12} (hs : s.status = .running) (hd : decodeWord s.fetchWord = some (.call nnn))
    (room : s.sp.val < 16) : step s = .next (s.afterCall nnn room) :=
  step_running hs hd (exec_call_of_lt nnn room) hs

/-- The state after the cycle of a return with an address on the stack. -/
def State.afterRet (s : State) (pos : 0 < s.sp.val) : State :=
  ({ s with sp := ⟨s.sp.val - 1, by omega⟩ }.setPc (s.stack[s.sp.val - 1]'(by omega) + 2)).decay

theorem step_ret {s : State} (hs : s.status = .running) (hd : decodeWord s.fetchWord = some .ret)
    (pos : 0 < s.sp.val) : step s = .next (s.afterRet pos) :=
  step_running hs hd (exec_ret_of_pos pos) hs

/-- After a call the machine fetches at the call's target, from the memory it had. -/
theorem State.afterCall_fetchWord (s : State) (nnn : Imm12) (room : s.sp.val < 16) :
    (s.afterCall nnn room).fetchWord = wordOfBytes (s.memRead nnn.toNat) (s.memRead (nnn.toNat + 1)) := by
  have target : (s.afterCall nnn room).pc.toNat = nnn.toNat := zextAddr_toNat nnn
  rw [fetchWord, target]
  rfl

theorem Frame.afterCall {c : Changes} {s : State} (nnn : Imm12) (room : s.sp.val < 16) (slot : s.sp.val ∈ c.slots)
    (sp : c.sp = true) (dt : c.dt = true) (st : c.st = true) : Frame c s (s.afterCall nnn room) :=
  ((((Frame.refl c s).setSlot room slot).setSp sp).setPc).decay dt st

theorem Frame.afterRet {c : Changes} {s t : State} (h : Frame c s t) (pos : 0 < t.sp.val) (sp : c.sp = true)
    (dt : c.dt = true) (st : c.st = true) : Frame c s (t.afterRet pos) :=
  ((h.setSp sp).setPc).decay dt st

/-- Settles O49: the call leaves its own address in the slot at SP, and the return one level higher pops it. -/
theorem callThenReturnResumesAfterTheCall : Obligations.CallThenReturnResumesAfterTheCall := by
  intro s nnn hs room hcall hret
  have decoded : decodeWord (s.afterCall nnn room).fetchWord = some .ret := by
    rw [s.afterCall_fetchWord nnn room, hret]
    decide
  have pos : 0 < (s.afterCall nnn room).sp.val := Nat.succ_pos _
  have frame : Frame { slots := [s.sp.val], sp := true, dt := true, st := true } s
      ((s.afterCall nnn room).afterRet pos) :=
    (Frame.afterCall nnn room (List.mem_singleton_self _) rfl rfl rfl).afterRet pos rfl rfl rfl
  refine ⟨s.afterCall nnn room, (s.afterCall nnn room).afterRet pos, step_call hs hcall room,
    step_ret (s := s.afterCall nnn room) hs decoded pos, ?_, rfl, hs, frame.sp_restored rfl⟩
  exact congrArg (· + 2) (Vector.getElem_set_self room)

/-! ### A block stored, then read -/

/-- Settles O50: each register stands at its own offset from the same I, and the load reads it there. -/
theorem storedRegistersAreLoadedBack : Obligations.StoredRegistersAreLoadedBack := by
  intro x s t v pc ht
  obtain rfl := exec_unique (exec_storeRegs x s) ht
  refine ⟨_, exec_loadRegs x _, fun r hr => ?_, fun r hr => ?_, ?_⟩
  · rw [State.advance_reg, State.bumpI_reg, State.loadBlock_reg _ _ r x.isLt, if_pos (Nat.lt_succ_of_le hr)]
    exact s.storeBlock_memRead_indexAddr x.isLt (Nat.lt_succ_of_le hr)
  · rw [State.advance_reg, State.bumpI_reg, State.loadBlock_reg _ _ r x.isLt, if_neg (by omega)]
    rfl
  · simp

/-- Addresses that an access cannot tell apart are followed by such addresses (R35). -/
theorem maskAddr_succ_congr {a b : Nat} (h : maskAddr a = maskAddr b) : maskAddr (a + 1) = maskAddr (b + 1) := by
  simp only [maskAddr, Config.memSize] at h ⊢
  omega

/-- Settles O52: registers `r` and `q` of the block go to the two addresses that the next cycle fetches from. -/
theorem storedCodeIsFetchedByTheNextCycle : Obligations.StoredCodeIsFetchedByTheNextCycle := by
  intro x r q s t hrq hq place ht
  obtain rfl := exec_unique (exec_storeRegs x s) ht
  have stored (p : Reg) (hp : p.val ≤ x.val) {a : Nat} (ha : maskAddr (s.indexAddr p.val) = maskAddr a) :
      (s.storeBlock (x.val + 1)).memRead a = s.reg p := by
    rw [← State.memRead_maskAddr, ← ha, State.memRead_maskAddr]
    exact s.storeBlock_memRead_indexAddr x.isLt (Nat.lt_succ_of_le hp)
  have next : maskAddr (s.indexAddr q.val) = maskAddr ((s.pc + 2).toNat + 1) := by
    rw [← hrq]
    exact maskAddr_succ_congr place
  have pc : ((s.storeBlock (x.val + 1)).bumpI x).advance.pc = s.pc + 2 := by simp
  rw [State.fetchWord, pc]
  exact congrArg₂ wordOfBytes (stored r (by omega) place) (stored q hq next)

end Sys2Proof.Machine
end
